-- ==== Sys2Proof/Word.lean ====
section
/-! DEFINITION. The word and byte types of SQRS-CORE (spec/10_state.md R20, spec/20_memory.md R52). -/

namespace Sys2Proof

/-- A register, a command word, the counter, the key and a raw draw are all 64 bits wide (R6, R20). -/
abbrev Word := BitVec 64

/-- One byte lane of the register window (R55). -/
abbrev Byte := BitVec 8

end Sys2Proof
end

