-- ==== Sys2Proof/Syntax.lean ====
section
/-! DEFINITION. The command set (one constructor per row of spec/opcode_table.json), the registers by
name, the host's accesses to the register window and what the block answers them with, and the host
program lines of spec/30_encoding.md R89 and R90. -/

namespace Sys2Proof

/-- The fifteen commands of R83, in the table's order. A command carries no operand: there are no
immediates, no register selectors and no addressing modes (R85, R86). -/
inductive Instr
  | load
  | raw
  | unit32
  | unit64
  | rangef32
  | rangef64
  | rangei32
  | rangei64
  | vec2f32
  | vec3f32
  | vec4f32
  | vec2f64
  | vec3f64
  | vec4f64
  | index
  deriving DecidableEq, Repr

/-- The eleven registers of R21, in the order of their offsets. -/
inductive Reg
  | id
  | status
  | cmd
  | opa
  | opb
  | ctr
  | key
  | r0
  | r1
  | r2
  | r3
  deriving DecidableEq, Repr

/-- The direction of an access and, for a write, its data (R67). -/
inductive AccessKind
  | read
  | write (v : Word)
  deriving DecidableEq, Repr

/-- One access of the host as it arrives at the bus port (R67): a byte address, a width in bytes and a
direction. A burst is a width of more than eight bytes (R52). -/
structure Access where
  addr : Nat
  bytes : Nat
  kind : AccessKind
  deriving DecidableEq, Repr

/-- What the bus port gives back (R66, R67): the data of a read, the response to a write, or the error
response of R54. -/
inductive Response
  | readData (v : Word)
  | writeDone
  | busError
  deriving DecidableEq, Repr

/-- The block's input ports during one step (R67): the reset input, and the access that arrives at the
bus port, if one does. -/
structure Cycle where
  reset : Bool
  access : Option Access
  deriving DecidableEq, Repr

/-- Nothing arrives at the ports. -/
def Cycle.idle : Cycle := { reset := false, access := none }

/-- A decimal float literal of a host program, `(-1)^neg * digits * 10^exp10` (R89). -/
structure FloatLit where
  neg : Bool
  digits : Nat
  exp10 : Int
  deriving DecidableEq, Repr

/-- A value of a host program line (R89): a hexadecimal or decimal literal, or a float literal of
either format. -/
inductive Value
  | num (n : Int)
  | f32 (x : FloatLit)
  | f64 (x : FloatLit)
  deriving DecidableEq, Repr

/-- A line of a host program that names one bus access (R89). -/
inductive Line
  | wr (r : Reg) (v : Value)
  | rd (r : Reg)
  | cmd (i : Instr)
  deriving DecidableEq, Repr

/-- The pseudo-instructions of R90. The operands of `rangei32` are decimal literals only. -/
inductive Pseudo
  | load (c k : Value)
  | raw
  | unit32
  | unit64
  | rangef32 (a b : FloatLit)
  | rangef64 (a b : FloatLit)
  | rangei32 (a b : Int)
  | rangei64 (a b : Value)
  | vec2f32
  | vec3f32
  | vec4f32
  | vec2f64
  | vec3f64
  | vec4f64
  | index (n : Value)
  | clrerr
  | save
  deriving DecidableEq, Repr

/-- A statement of a host program (R89): a line or a pseudo-instruction. -/
inductive HostStmt
  | line (l : Line)
  | pseudo (p : Pseudo)
  deriving DecidableEq, Repr

end Sys2Proof
end

