-- ==== Sys2Proof/WellFormed.lean ====
section
/-! DEFINITION. What the spec asks of a command word, a host access and a host program before it means
anything. Written from the rules' own words, apart from the decoder and the bus, which must agree. -/

namespace Sys2Proof

/-- A command has no operand field that could be ill-formed (R85, R86). -/
def Instr.wellFormed (i : Instr) : Bool :=
  match i with
  | .load | .raw | .unit32 | .unit64 | .rangef32 | .rangef64 | .rangei32 | .rangei64 => true
  | .vec2f32 | .vec3f32 | .vec4f32 | .vec2f64 | .vec3f64 | .vec4f64 | .index => true

/-- A legal command word: `MBZ` is zero and `OPC` lies in 0x01 to 0x0F (R80, R81). -/
def wordWellFormed (w : Word) : Bool :=
  w.toNat / 2 ^ 8 == 0 && (1 ≤ w.toNat % 2 ^ 8 && w.toNat % 2 ^ 8 ≤ 15)

/-- The access lies in the register window that starts at `base` (R50, R51). -/
def Access.inWindow (base : Nat) (a : Access) : Bool :=
  base ≤ a.addr && a.addr < base + 0x80

/-- An access the block performs: in the window, 8 bytes wide (R52), aligned (R53), at a mapped offset
(R51: 0x58 to 0x7F are reserved). -/
def Access.wellFormed (base : Nat) (a : Access) : Bool :=
  a.inWindow base && a.bytes == 8 && (a.addr - base) % 8 == 0 && a.addr - base < 0x58

/-- The decimal fits the i32 operands of the pseudo-instruction `rangei32`: it lies in
`[-2^31, 2^31-1]` (R90). -/
def inI32 (n : Int) : Bool := -2 ^ 31 ≤ n && n ≤ 2 ^ 31 - 1

/-- R90 bounds the operands of `rangei32` only. -/
def Pseudo.wellFormed : Pseudo → Bool
  | .rangei32 a b => inI32 a && inI32 b
  | .load _ _ | .raw | .unit32 | .unit64 | .rangef32 _ _ | .rangef64 _ _ | .rangei64 _ _ => true
  | .vec2f32 | .vec3f32 | .vec4f32 | .vec2f64 | .vec3f64 | .vec4f64 => true
  | .index _ | .clrerr | .save => true

/-- Well-formed host program statements (R89, R90). -/
def HostStmt.wellFormed : HostStmt → Bool
  | .line _ => true
  | .pseudo p => p.wellFormed

end Sys2Proof
end

