-- ==== Sys2Proof/Decode.lean ====
section
/-! DEFINITION. The command decoder (spec/30_encoding.md R80 to R84), total on every word, the encoder
written from the opcode map, the columns of R83 that say how many draws and results a command has, and
the offset decoder of the register window (spec/20_memory.md R51). -/

namespace Sys2Proof

/-- Why a word is an `IllegalCommand`. -/
inductive DecodeReject
  /-- `w[63:8] != 0` (R82). -/
  | mbzNonZero
  /-- `OPC` is 0x00 or 0x10 to 0xFF (R84). -/
  | reservedOpcode
  /-- Fewer than eight bytes were given: every command word is 64 bits (R80). -/
  | shortWord
  deriving DecidableEq, Repr

/-- `w[7:0]` (R80). -/
def opcOf (w : Word) : BitVec 8 := w.extractLsb' 0 8

/-- `w[63:8]` (R80). -/
def mbzOf (w : Word) : BitVec 56 := w.extractLsb' 8 56

/-- The row of R83 that an opcode selects, if it is not reserved. -/
def decodeOpc (opc : BitVec 8) : Option Instr :=
  match opc.toNat with
  | 0x01 => some .load
  | 0x02 => some .raw
  | 0x03 => some .unit32
  | 0x04 => some .unit64
  | 0x05 => some .rangef32
  | 0x06 => some .rangef64
  | 0x07 => some .rangei32
  | 0x08 => some .rangei64
  | 0x09 => some .vec2f32
  | 0x0A => some .vec3f32
  | 0x0B => some .vec4f32
  | 0x0C => some .vec2f64
  | 0x0D => some .vec3f64
  | 0x0E => some .vec4f64
  | 0x0F => some .index
  | _ => none

/-- The decoder (R81): the `MBZ` check comes first, then the opcode map. -/
def decode (w : Word) : Except DecodeReject Instr :=
  if mbzOf w ≠ 0 then .error .mbzNonZero
  else match decodeOpc (opcOf w) with
    | some i => .ok i
    | none => .error .reservedOpcode

/-- The 64-bit word of eight bytes, the first in bits 7:0 (R55). -/
def wordOfBytes (b0 b1 b2 b3 b4 b5 b6 b7 : Byte) : Word :=
  b7 ++ b6 ++ b5 ++ b4 ++ b3 ++ b2 ++ b1 ++ b0

/-- Byte `k` of a word in the window's little-endian order: bits `[8k+7 : 8k]` (R55). -/
def byteOfWord (w : Word) (k : Nat) : Byte := w.extractLsb' (8 * k) 8

/-- The decoder on bytes laid out as R55 says, with what follows the command word. -/
def decodeBytes : List Byte → Except DecodeReject (Instr × List Byte)
  | b0 :: b1 :: b2 :: b3 :: b4 :: b5 :: b6 :: b7 :: rest =>
    match decode (wordOfBytes b0 b1 b2 b3 b4 b5 b6 b7) with
    | .ok i => .ok (i, rest)
    | .error e => .error e
  | _ => .error .shortWord

/-- The opcode column of R83. -/
def opcode : Instr → BitVec 8
  | .load => 0x01
  | .raw => 0x02
  | .unit32 => 0x03
  | .unit64 => 0x04
  | .rangef32 => 0x05
  | .rangef64 => 0x06
  | .rangei32 => 0x07
  | .rangei64 => 0x08
  | .vec2f32 => 0x09
  | .vec3f32 => 0x0A
  | .vec4f32 => 0x0B
  | .vec2f64 => 0x0C
  | .vec3f64 => 0x0D
  | .vec4f64 => 0x0E
  | .index => 0x0F

/-- The command word of a command: `OPC` in bits 7:0, `MBZ` zero (R80). -/
def encode (i : Instr) : Word := (0 : BitVec 56) ++ opcode i

/-- The eight bytes of a command word, lowest address first (R55). -/
def encodeBytes (i : Instr) : List Byte := (List.range 8).map (byteOfWord (encode i))

/-- The "draws" column of R83: how many raw draws a command performs when it succeeds. -/
def Instr.draws : Instr → Nat
  | .load => 0
  | .raw | .unit32 | .unit64 | .rangef32 | .rangef64 | .rangei32 | .rangei64 | .index => 1
  | .vec2f32 | .vec2f64 => 2
  | .vec3f32 | .vec3f64 => 3
  | .vec4f32 | .vec4f64 => 4

/-- How many of `R0` to `R3` a command writes when it succeeds, from `R0` up (R26, R83). -/
def Instr.results : Instr → Nat
  | .load => 0
  | .raw | .unit32 | .unit64 | .rangef32 | .rangef64 | .rangei32 | .rangei64 | .index => 1
  | .vec2f32 | .vec2f64 => 2
  | .vec3f32 | .vec3f64 => 3
  | .vec4f32 | .vec4f64 => 4

/-- The instruction the decoder reads from a table row's word: one command word of 64 bits, every bit
above `nbits` zero. -/
def decodeTableWord (nbits w : Nat) : Option Instr :=
  if w % 2 ^ nbits < 2 ^ 64 then
    match decode (BitVec.ofNat 64 (w % 2 ^ nbits)) with
    | .ok i => some i
    | .error _ => none
  else none

/-- The offset column of R21. -/
def Reg.offset : Reg → Nat
  | .id => 0x00
  | .status => 0x08
  | .cmd => 0x10
  | .opa => 0x18
  | .opb => 0x20
  | .ctr => 0x28
  | .key => 0x30
  | .r0 => 0x38
  | .r1 => 0x40
  | .r2 => 0x48
  | .r3 => 0x50

/-- The register a byte offset selects (R51); none for a misaligned offset (R53) and for the reserved
offsets 0x58 to 0x7F. -/
def regAt (off : Nat) : Option Reg :=
  match off with
  | 0x00 => some .id
  | 0x08 => some .status
  | 0x10 => some .cmd
  | 0x18 => some .opa
  | 0x20 => some .opb
  | 0x28 => some .ctr
  | 0x30 => some .key
  | 0x38 => some .r0
  | 0x40 => some .r1
  | 0x48 => some .r2
  | 0x50 => some .r3
  | _ => none

end Sys2Proof
end

