-- ==== Sys2Proof/Config.lean ====
section
/-! DEFINITION. The tie rules and this hardware's value of ROUND_TIES, and the free values: what the spec
leaves open and nothing in Lean can evaluate. The parameters of R7 themselves (BASE, CMD_LATENCY,
ROUND_TIES) stand in `Sys2Proof.Machine.Params`, since statements are made for all of their values. -/

namespace Sys2Proof

/-- The two tie rules of the round-to-integer step (R7, R152). -/
inductive RoundTies
  | even
  | away
  deriving DecidableEq, Repr

/-- `ROUND_TIES` of this hardware (R7, R152, spec/90_conflicts.md C2): the parameter's value in
`State.reset`. -/
def Config.roundTies : RoundTies := .even

/-- FREE VALUE. What the platform answers, in the step of a reset, to the accesses that the reset
leaves unperformed: "its response is the platform's" (R251, spec/93_implementation_defined.md I13,
`any value`). Applied to `State.freeIndex`; notes/assumptions/5.md. -/
opaque Config.resetResponse : Nat → Option Response

/-- FREE VALUE. `rint_N` is given for finite F-values only (R152) and no other reaches it (R153, R167,
R171); what the total function answers for the bit pattern of another value is nothing the spec
states. notes/assumptions/6.md. -/
opaque Config.rintNonFinite : Nat → Int

end Sys2Proof
end

