-- ==== Sys2Proof/Machine/State.lean ====
section
/-! DEFINITION. The state of SQRS-CORE as plain data, its value after reset, and the reasons a step can
stop. The block has no memory, no program counter and no condition flags (spec/10_state.md R31, R32,
spec/20_memory.md R50); `ID` is hardwired and stands in `Ops.lean`'s register read. -/

namespace Sys2Proof.Machine

/-- The command errors that `STATUS.ERR` can record (R220). -/
inductive CmdError
  /-- Code 1: `INDEX` with `size = 0` (R212). -/
  | domainError
  /-- Code 3: `MBZ` nonzero or `OPC` reserved (R82, R84). -/
  | illegalCommand
  /-- Code 4: a command other than `LOAD` while `VALID = 0` (R254). -/
  | notCreated
  deriving DecidableEq, Repr

/-- The fields of `STATUS` (R28). Its reserved bits read 0 and hold nothing; `Flags.lean` packs the
word. `err = none` is code 0, the most recent command succeeded. -/
structure Status where
  valid : Bool
  sticky : Bool
  err : Option CmdError
  deriving DecidableEq, Repr

/-- The parameters of R7, which a model takes as arguments. No step writes them. `BASE` is
`0x80 * baseIndex`, a multiple of 0x80 (R50); `CMD_LATENCY` of opcode `k` is one more than entry `k`
of `extraCycles` (an entry past the end is 0), a bounded positive number (R262); `ROUND_TIES` is
`roundTies`, `EVEN` for this hardware and `AWAY` in the alternative configuration (R152). -/
structure Params where
  baseIndex : Nat
  extraCycles : List Nat
  roundTies : RoundTies
  deriving DecidableEq, Repr

/-- The machine. -/
structure State where
  /-- `CTR`, the generator's counter (R22). -/
  ctr : Word
  /-- `KEY`, the generator's key (R23). -/
  key : Word
  /-- `CMD`, the last command word written (R27). -/
  cmd : Word
  /-- `OPA`, the first operand register (R24). -/
  opa : Word
  /-- `OPB`, the second operand register (R25). -/
  opb : Word
  /-- `R0` to `R3`, the result registers (R26). -/
  r0 : Word
  r1 : Word
  r2 : Word
  r3 : Word
  /-- `STATUS` (R28). -/
  status : Status
  /-- The steps for which the running command still holds the accesses (R34 (b), R60, R262); 0 when the
  block is idle. -/
  executing : Nat
  /-- The accesses received and not yet performed, oldest first (R59, R60). -/
  waiting : List Access
  /-- What arrives at the ports in the steps to come, the next one first; past its end nothing arrives
  (R66, R67). -/
  inputs : List Cycle
  /-- What the bus port gave back in the last step (R66, R67). -/
  response : Option Response
  /-- The parameters (R7). -/
  params : Params
  /-- The MODEL's own counter, to which the free value of a reset's response is applied. -/
  freeIndex : Nat
  deriving DecidableEq, Repr

/-- The reasons a step stops with a fault. -/
inductive Fault
  /-- Raised by the bus (`Bus.lean`) for an access that is misaligned, not 8 bytes wide or at a reserved
  offset (R54). Safe: the access changes nothing, and the block would go on with the next access. -/
  | busError
  /-- Raised by the bus for an access outside the block's window, an address the block does not have
  (R50). Safe: the spec gives the block no behaviour there. -/
  | outsideWindow
  deriving DecidableEq, Repr

/-- The reasons a step is refused. -/
inductive Refusal
  /-- Raised by an arm of `exec` whose instruction has no meaning yet; no arm does. Safe. -/
  | notModelled (mnemonic : String)
  deriving DecidableEq, Repr

/-- What a step and a meaning answer. -/
abbrev Result := Host.Outcome State Fault Refusal

/-- The machine right after reset (R36, R250). The parameters have no reset value: `ROUND_TIES` stands at
this hardware's value (R7), the two OPEN ones at notes/assumptions/1.md and 2.md's. -/
def State.reset : State where
  ctr := 0
  key := 0
  cmd := 0
  opa := 0
  opb := 0
  r0 := 0
  r1 := 0
  r2 := 0
  r3 := 0
  status := { valid := false, sticky := false, err := none }
  executing := 0
  waiting := []
  inputs := []
  response := none
  params := { baseIndex := 0, extraCycles := [], roundTies := Config.roundTies }
  freeIndex := 0

end Sys2Proof.Machine
end

