-- ==== Sys2Proof/Machine/Flags.lean ====
section
/-! DEFINITION. The `STATUS` word: its packing from the fields (spec/10_state.md R28) and every rule that
writes a field (R29, spec/60_exceptions.md R220, R222, R223). There are no condition flags and no
floating-point exception flags (R32, R146). -/

namespace Sys2Proof.Machine

/-- The code column of R220. -/
def errCode : Option CmdError → BitVec 4
  | none => 0
  | some .domainError => 1
  | some .illegalCommand => 3
  | some .notCreated => 4

/-- `STATUS` as a word: `VALID` bit 0, `STICKY` bit 2, `ERR` bits 7:4, every other bit reserved and 0
(R28). -/
def statusWord (st : Status) : Word :=
  (0 : BitVec 56) ++ errCode st.err ++ (0 : BitVec 1) ++ BitVec.ofBool st.sticky
    ++ (0 : BitVec 1) ++ BitVec.ofBool st.valid

/-- The fields after a command that ends in error `e` (R222). -/
def Status.failed (st : Status) (e : CmdError) : Status := { st with err := some e, sticky := true }

/-- The fields after a command that succeeds (R223). -/
def Status.succeeded (st : Status) : Status := { st with err := none }

/-- The fields after a host write of `v` to `STATUS`: bit 2 clears `STICKY`, nothing else is writable
(R29). -/
def Status.hostWritten (st : Status) (v : Word) : Status :=
  if v.getLsbD 2 then { st with sticky := false } else st

end Sys2Proof.Machine
end

