-- ==== Sys2Proof/Machine/Float.lean ====
section
/-! DEFINITION. The floating-point primitives of spec/00_scope.md R11 on IEEE 754 binary32 and binary64,
with the conventions of spec/41_unit.md R145 to R147: one rounding per operation, to nearest with ties
to even, gradual underflow, overflow to infinity, one canonical NaN, no flags.

A finite value of a format is an integer multiple of the format's smallest positive value, so it is kept
as a sign and a magnitude counted in that unit: sums are exact on magnitudes, and a product or a
quotient is an exact fraction of units that is rounded once. -/

namespace Sys2Proof.Machine

/-- `F32` and `F64` (R11). -/
inductive Format
  | f32
  | f64
  deriving DecidableEq, Repr

/-- Bits of the fraction field. -/
def Format.mantBits : Format → Nat
  | .f32 => 23
  | .f64 => 52

/-- Bits of the exponent field. -/
def Format.expBits : Format → Nat
  | .f32 => 8
  | .f64 => 11

/-- The smallest positive value of the format is `2^-unitExp`. -/
def Format.unitExp : Format → Nat
  | .f32 => 149
  | .f64 => 1074

/-- The value 1 counted in units. -/
def Format.one (F : Format) : Nat := 2 ^ F.unitExp

/-- Magnitudes of `2^overflowExp` units and above are not finite in the format. -/
def Format.overflowExp (F : Format) : Nat := 2 ^ F.expBits - 2 + F.mantBits

/-- A value of a format: the NaN (one value, R145), an infinity, or a finite value as sign and magnitude
in units. Zero has both signs. -/
inductive FloatVal
  | nan
  | inf (neg : Bool)
  | fin (neg : Bool) (mag : Nat)
  deriving DecidableEq, Repr

/-- The value of a bit pattern: `f32(bits)`, `f64(bits)` (R11). Subnormals keep their value (R146). -/
def FloatVal.ofBits (F : Format) (b : Nat) : FloatVal :=
  let neg := b / 2 ^ (F.mantBits + F.expBits) % 2 == 1
  let e := b / 2 ^ F.mantBits % 2 ^ F.expBits
  let m := b % 2 ^ F.mantBits
  if e = 2 ^ F.expBits - 1 then (if m = 0 then .inf neg else .nan)
  else if e = 0 then .fin neg m
  else .fin neg ((2 ^ F.mantBits + m) * 2 ^ (e - 1))

/-- The sign bit of the format. -/
def signBit (F : Format) (neg : Bool) : Nat := if neg then 2 ^ (F.mantBits + F.expBits) else 0

/-- The bit pattern of a value: `bits32(f)`, `bits64(f)` (R11); a NaN gives the canonical quiet NaN
(R145). -/
def FloatVal.toBits (F : Format) : FloatVal → Nat
  | .nan => (2 ^ F.expBits - 1) * 2 ^ F.mantBits + 2 ^ (F.mantBits - 1)
  | .inf neg => signBit F neg + (2 ^ F.expBits - 1) * 2 ^ F.mantBits
  | .fin neg mag =>
    let sh := Nat.log2 mag - F.mantBits
    signBit F neg + (sh * 2 ^ F.mantBits + mag / 2 ^ sh)

/-- The integer nearest to `num / den`, a tie by the tie rule: the even one, or the larger one, which on
magnitudes is the one farther from zero (R147, R152). -/
def roundQuot (ties : RoundTies) (num den : Nat) : Nat :=
  let q := num / den
  let r := num % den
  if 2 * r < den then q
  else if den < 2 * r then q + 1
  else match ties with
    | .even => q + q % 2
    | .away => q + 1

/-- The value `(-1)^neg * num / den` units rounded to the format, to nearest with ties to even (R11,
R147): the significand keeps `mantBits + 1` bits, fewer below the normal range. -/
def roundTo (F : Format) (neg : Bool) (num den : Nat) : FloatVal :=
  let sh := Nat.log2 (num / den) - F.mantBits
  let mag := roundQuot .even num (den * 2 ^ sh) * 2 ^ sh
  if mag < 2 ^ F.overflowExp then .fin neg mag else .inf neg

/-- `cvt_N(n)`: the exact integer `n` in format `FN` (R11). -/
def cvt (F : Format) (n : Int) : FloatVal := roundTo F (n < 0) (n.natAbs * F.one) 1

/-- The value with its sign turned. -/
def FloatVal.neg : FloatVal → FloatVal
  | .nan => .nan
  | .inf s => .inf (!s)
  | .fin s m => .fin (!s) m

/-- `add_N(a, b)` (R11). Infinities of opposite signs give NaN; an exact sum of zero from opposite signs
is `+0`. -/
def addF (F : Format) : FloatVal → FloatVal → FloatVal
  | .nan, _ => .nan
  | _, .nan => .nan
  | .inf s, .inf t => if s = t then .inf s else .nan
  | .inf s, .fin _ _ => .inf s
  | .fin _ _, .inf t => .inf t
  | .fin s m, .fin t n =>
    if s = t then roundTo F s (m + n) 1
    else if n < m then roundTo F s (m - n) 1
    else if m < n then roundTo F t (n - m) 1
    else .fin false 0

/-- `sub_N(a, b)` (R11). -/
def subF (F : Format) (a b : FloatVal) : FloatVal := addF F a b.neg

/-- `mul_N(a, b)` (R11). Infinity times zero gives NaN. -/
def mulF (F : Format) : FloatVal → FloatVal → FloatVal
  | .nan, _ => .nan
  | _, .nan => .nan
  | .inf s, .inf t => .inf (s != t)
  | .inf s, .fin t n => if n = 0 then .nan else .inf (s != t)
  | .fin s m, .inf t => if m = 0 then .nan else .inf (s != t)
  | .fin s m, .fin t n => roundTo F (s != t) (m * n) F.one

/-- `div_N(a, b)` (R11). Zero by zero and infinity by infinity give NaN. -/
def divF (F : Format) : FloatVal → FloatVal → FloatVal
  | .nan, _ => .nan
  | _, .nan => .nan
  | .inf _, .inf _ => .nan
  | .inf s, .fin t _ => .inf (s != t)
  | .fin s _, .inf t => .fin (s != t) 0
  | .fin s m, .fin t n =>
    if n = 0 then (if m = 0 then .nan else .inf (s != t))
    else roundTo F (s != t) (m * F.one) n

/-- `rint_N(v, ROUND_TIES)` for a finite `v`: the nearest integer (R152). A value that is not finite does
not reach it (R153); the free value stands there. -/
def rint (F : Format) (ties : RoundTies) (v : FloatVal) : Int :=
  match v with
  | .fin neg mag => if neg then -(roundQuot ties mag F.one : Int) else roundQuot ties mag F.one
  | .nan | .inf _ => Config.rintNonFinite (v.toBits F)

/-- `sat_32` and `sat_64`: narrowing to the signed type of `bits` bits by saturation (R153). -/
def sat (bits : Nat) (n : Int) : Int :=
  if 2 ^ (bits - 1) - 1 < n then 2 ^ (bits - 1) - 1
  else if n < -2 ^ (bits - 1) then -2 ^ (bits - 1)
  else n

/-- A finite value's signed count of units. -/
def signedUnits (neg : Bool) (mag : Nat) : Int := if neg then -(mag : Int) else mag

/-- The IEEE order on values, for statements: no NaN compares, the two zeros are equal. -/
def FloatVal.le : FloatVal → FloatVal → Bool
  | .nan, _ => false
  | _, .nan => false
  | .inf true, _ => true
  | _, .inf false => true
  | .inf false, .fin _ _ => false
  | .inf false, .inf true => false
  | .fin _ _, .inf true => false
  | .fin s m, .fin t n => signedUnits s m ≤ signedUnits t n

/-- The value is finite. -/
def FloatVal.isFinite : FloatVal → Bool
  | .fin _ _ => true
  | .nan => false
  | .inf _ => false

end Sys2Proof.Machine
end

