-- ==== Sys2Proof/Machine/Operands.lean ====
section
/-! DEFINITION. Every operand form of R87 (how a command reads `OPA` and `OPB`) and every result form of
R88 (how a result stands in a result register), spec/30_encoding.md. Bits a form does not name are
ignored. -/

namespace Sys2Proof.Machine

/-- `f32(w[31:0])`, bits 63:32 ignored (R87). -/
def operandF32 (w : Word) : FloatVal := FloatVal.ofBits .f32 (w.extractLsb' 0 32).toNat

/-- `f64(w)` (R87). -/
def operandF64 (w : Word) : FloatVal := FloatVal.ofBits .f64 w.toNat

/-- `s32(w[31:0])`, bits 63:32 ignored (R87). -/
def operandI32 (w : Word) : Int := (w.extractLsb' 0 32).toInt

/-- `s64(w)` (R87). -/
def operandI64 (w : Word) : Int := w.toInt

/-- `zext_64(bits32(v))` (R88). -/
def resultF32 (v : FloatVal) : Word := (BitVec.ofNat 32 (v.toBits .f32)).zeroExtend 64

/-- `bits64(v)` (R88). -/
def resultF64 (v : FloatVal) : Word := BitVec.ofNat 64 (v.toBits .f64)

/-- `sext_64(n)` of an i32 (R88). -/
def resultI32 (n : Int) : Word := (BitVec.ofInt 32 n).signExtend 64

/-- The 64-bit two's-complement form of an i64 (R88). -/
def resultI64 (n : Int) : Word := BitVec.ofInt 64 n

/-- The operand of either float format (R87). -/
def operandF : Format → Word → FloatVal
  | .f32 => operandF32
  | .f64 => operandF64

/-- The result of either float format (R88). -/
def resultF : Format → FloatVal → Word
  | .f32 => resultF32
  | .f64 => resultF64

end Sys2Proof.Machine
end

