-- ==== Sys2Proof/Machine/Ops.lean ====
section
/-! DEFINITION. The named operations the meanings are written over: the mixing function and the draw
(spec/40_core.md R100 to R103), reduction (spec/41_unit.md R130), raising a command error and ending a
command (spec/60_exceptions.md R222, R223), the registers as the host reads and writes them
(spec/20_memory.md R55 to R57) and the reset event (spec/70_reset_and_hazards.md R250, R251). -/

namespace Sys2Proof.Machine

/-! ## The mixing engine -/

/-- `rot32(v)` (R100). -/
def rot32 (v : Word) : Word := (v >>> 32) ||| (v <<< 32)

/-- `Squares(c, k)`: every product and sum wraps modulo 2^64 (R101, R102). -/
def squares (c k : Word) : Word :=
  let x0 := c * k
  let y := x0
  let z := y + k
  let x1 := rot32 (x0 * x0 + y)
  let x2 := rot32 (x1 * x1 + z)
  let x3 := rot32 (x2 * x2 + y)
  (x3 * x3 + z) >>> 32

/-- `Draw()`: the raw draw at the counter before the increment, and the state with the counter advanced
(R103, R104). -/
def draw (s : State) : Word × State := (squares s.ctr s.key, { s with ctr := s.ctr + 1 })

/-- The reduction modulo 2^32 - 1 (R130, R131). -/
def reduceDraw (r : Word) : Word := r % 4294967295

/-- `Scaled()`: one draw, reduced (R130). -/
def scaled (s : State) : Word × State := (reduceDraw (draw s).1, (draw s).2)

/-! ## Errors: the one way a command fails, and the one way it succeeds -/

/-- `raise E`: `STATUS.ERR` and `STATUS.STICKY` are written and nothing else (R14, R222). There is no
vector, no saved state and no return (R229); the acknowledgement is `acknowledge`. -/
def raise (e : CmdError) (s : State) : State := { s with status := s.status.failed e }

/-- A command that succeeds writes `ERR <- 0` and leaves `STICKY` alone (R223). -/
def succeed (s : State) : State := { s with status := s.status.succeeded }

/-- A host write of `v` to `STATUS` (R29, R225), the only acknowledgement of an error (R229). -/
def acknowledge (v : Word) (s : State) : State := { s with status := s.status.hostWritten v }

/-- The check every command but `LOAD` begins with (R254): before a `LOAD` it raises `NotCreated`. -/
def whenCreated (s : State) (run : State → Result) : Result :=
  if s.status.valid then run s else .next (raise .notCreated s)

/-! ## Results -/

/-- `x[Ri] <- v` (R26). -/
def setResult (i : Fin 4) (v : Word) (s : State) : State :=
  match i with
  | 0 => { s with r0 := v }
  | 1 => { s with r1 := v }
  | 2 => { s with r2 := v }
  | 3 => { s with r3 := v }

/-- The end of a scalar command: its value into `R0`, `ERR <- 0`. -/
def deliver (v : Word) (s : State) : Result := .next (succeed (setResult 0 v s))

/-! ## The registers as the host sees them -/

/-- A host read (R56): `ID` is hardwired (R30), and no read changes anything. -/
def readReg (s : State) : Reg → Word
  | .id => 0x5351525300070001
  | .status => statusWord s.status
  | .cmd => s.cmd
  | .opa => s.opa
  | .opb => s.opb
  | .ctr => s.ctr
  | .key => s.key
  | .r0 => s.r0
  | .r1 => s.r1
  | .r2 => s.r2
  | .r3 => s.r3

/-- What a host write stores (R57); `Bus.lean` runs the command after a write to `CMD`. A write to a
read-only register is ignored. -/
def writeReg (r : Reg) (v : Word) (s : State) : State :=
  match r with
  | .opa => { s with opa := v }
  | .opb => { s with opb := v }
  | .cmd => { s with cmd := v }
  | .status => acknowledge v s
  | .id | .ctr | .key | .r0 | .r1 | .r2 | .r3 => s

/-- The byte at `BASE + off`: byte `off mod 8` of the register there, little-endian (R55). No access
reads less than a register (R52). -/
def windowByte (s : State) (off : Nat) : Option Byte :=
  (regAt (8 * (off / 8))).map fun r => byteOfWord (readReg s r) (off % 8)

/-- `BASE` (R7, R50). -/
def Params.base (p : Params) : Nat := 0x80 * p.baseIndex

/-- `CMD_LATENCY` of an opcode, in steps and at least one (R7, R262). -/
def Params.latency (p : Params) (opc : BitVec 8) : Nat := p.extraCycles.getD opc.toNat 0 + 1

/-! ## Reset -/

/-- The reset event (R250, R251): every register takes its reset value, a running command is abandoned,
and the accesses held or arriving are not performed. If there was such an access, or the response of a
`CMD` write was still due, what the port gives back is the platform's: the free value. -/
def resetEvent (arriving : Option Access) (s : State) : State :=
  let dropped : Bool := arriving.isSome || !s.waiting.isEmpty || s.executing != 0
  { State.reset with
    inputs := s.inputs
    params := s.params
    response := if dropped then Config.resetResponse s.freeIndex else none
    freeIndex := if dropped then s.freeIndex + 1 else s.freeIndex }

end Sys2Proof.Machine
end

