-- ==== Sys2Proof/Machine/Generator.lean ====
section
/-! DEFINITION. `LOAD` and `RAW` (spec/40_core.md R110 to R118). -/

namespace Sys2Proof.Machine

/-- `LOAD` (R111): `CTR` and `KEY` from `OPA` and `OPB`, `VALID <- 1`, `ERR <- 0`; legal at any time and
of any key (R106, R112). -/
def execLoad (s : State) : Result :=
  .next { s with
    ctr := s.opa
    key := s.opb
    status := { s.status.succeeded with valid := true } }

/-- `RAW` (R116). -/
def execRaw (s : State) : Result :=
  whenCreated s fun s => deliver (draw s).1 (draw s).2

end Sys2Proof.Machine
end

