-- ==== Sys2Proof/Machine/Index.lean ====
section
/-! DEFINITION. `INDEX` (spec/44_index.md R210 to R214). -/

namespace Sys2Proof.Machine

/-- `INDEX` (R211): the zero check comes before the draw, so a failing call draws nothing (R213). -/
def execIndex (s : State) : Result :=
  whenCreated s fun s =>
    if s.opa = 0 then .next (raise .domainError s)
    else deliver ((scaled s).1 % s.opa) (scaled s).2

end Sys2Proof.Machine
end

