-- ==== Sys2Proof/Machine/Unit.lean ====
section
/-! DEFINITION. The unit values and `UNIT32`, `UNIT64` (spec/41_unit.md R130 to R143). -/

namespace Sys2Proof.Machine

/-- `Unit32(s)`, `Unit64(s)`: the scaled value and the modulus are each converted to the format, then
divided in it (R132, R133). -/
def unitOf (F : Format) (s : Word) : FloatVal :=
  divF F (cvt F s.toNat) (cvt F 4294967295)

/-- `UnitN(Scaled())`: one draw. -/
def drawUnit (F : Format) (s : State) : FloatVal × State :=
  (unitOf F (scaled s).1, (scaled s).2)

/-- `UNIT32` (R137). -/
def execUnit32 (s : State) : Result :=
  whenCreated s fun s => deliver (resultF32 (drawUnit .f32 s).1) (drawUnit .f32 s).2

/-- `UNIT64` (R141). -/
def execUnit64 (s : State) : Result :=
  whenCreated s fun s => deliver (resultF64 (drawUnit .f64 s).1) (drawUnit .f64 s).2

end Sys2Proof.Machine
end

