-- ==== Sys2Proof/Machine/Range.lean ====
section
/-! DEFINITION. The affine remap and the ranged projections `RANGEF32`, `RANGEF64`, `RANGEI32`,
`RANGEI64` (spec/42_range.md R150 to R171). Malformed ranges are computed by the same formula (R155). -/

namespace Sys2Proof.Machine

/-- `RangeFN(a, b, u) = add_N(a, mul_N(sub_N(b, a), u))`, three separate roundings (R150, R151). -/
def rangeOf (F : Format) (a b u : FloatVal) : FloatVal :=
  addF F a (mulF F (subF F b a) u)

/-- The integer a range command narrows to: the remap between the widened bounds, rounded by the tie
rule and saturated at the type's bounds (R152 to R154, R165, R169). -/
def rangeInt (F : Format) (bits : Nat) (ties : RoundTies) (a b : Int) (u : FloatVal) : Int :=
  sat bits (rint F ties (rangeOf F (cvt F a) (cvt F b) u))

/-- `RANGEF32` (R157). -/
def execRangef32 (s : State) : Result :=
  whenCreated s fun s =>
    deliver (resultF32 (rangeOf .f32 (operandF32 s.opa) (operandF32 s.opb) (drawUnit .f32 s).1))
      (drawUnit .f32 s).2

/-- `RANGEF64` (R161). -/
def execRangef64 (s : State) : Result :=
  whenCreated s fun s =>
    deliver (resultF64 (rangeOf .f64 (operandF64 s.opa) (operandF64 s.opb) (drawUnit .f64 s).1))
      (drawUnit .f64 s).2

/-- `RANGEI32` (R165): the F32 path. -/
def execRangei32 (s : State) : Result :=
  whenCreated s fun s =>
    deliver
      (resultI32 (rangeInt .f32 32 s.params.roundTies (operandI32 s.opa) (operandI32 s.opb)
        (drawUnit .f32 s).1))
      (drawUnit .f32 s).2

/-- `RANGEI64` (R169): the F64 path. -/
def execRangei64 (s : State) : Result :=
  whenCreated s fun s =>
    deliver
      (resultI64 (rangeInt .f64 64 s.params.roundTies (operandI64 s.opa) (operandI64 s.opb)
        (drawUnit .f64 s).1))
      (drawUnit .f64 s).2

end Sys2Proof.Machine
end

