-- ==== Sys2Proof/Machine/VectorCmds.lean ====
section
/-! DEFINITION. The vector commands `VEC2F32` to `VEC4F64` (spec/43_vector.md R180 to R201). -/

namespace Sys2Proof.Machine

/-- The value 1.0 of a format, with a sign: the bounds of a component (R180). -/
def onePoint (F : Format) (neg : Bool) : FloatVal := .fin neg F.one

/-- The component of a scaled value: `RangeFN(-1.0, 1.0, UnitN(s))` (R180). -/
def compOf (F : Format) (s : Word) : FloatVal :=
  rangeOf F (onePoint F true) (onePoint F false) (unitOf F s)

/-- `CompN()`: one draw (R180). -/
def drawComp (F : Format) (s : State) : FloatVal × State :=
  (compOf F (scaled s).1, (scaled s).2)

/-- The loop of R181: for each `i` of the list, in order, `x[Ri] <- CompN()`. -/
def fillComps (F : Format) : List (Fin 4) → State → State
  | [], s => s
  | i :: rest, s =>
    fillComps F rest (setResult i (resultF F (drawComp F s).1) (drawComp F s).2)

/-- The operation the six vector commands share (R181): the components of the listed registers, then
`ERR <- 0`. -/
def vectorOp (F : Format) (regs : List (Fin 4)) (s : State) : Result :=
  whenCreated s fun s => .next (succeed (fillComps F regs s))

/-- `VEC2F32` (R185). -/
def execVec2f32 (s : State) : Result := vectorOp .f32 [0, 1] s

/-- `VEC3F32` (R188). -/
def execVec3f32 (s : State) : Result := vectorOp .f32 [0, 1, 2] s

/-- `VEC4F32` (R191). -/
def execVec4f32 (s : State) : Result := vectorOp .f32 [0, 1, 2, 3] s

/-- `VEC2F64` (R194). -/
def execVec2f64 (s : State) : Result := vectorOp .f64 [0, 1] s

/-- `VEC3F64` (R197). -/
def execVec3f64 (s : State) : Result := vectorOp .f64 [0, 1, 2] s

/-- `VEC4F64` (R200). -/
def execVec4f64 (s : State) : Result := vectorOp .f64 [0, 1, 2, 3] s

end Sys2Proof.Machine
end

