-- ==== Sys2Proof/Machine/Dispatch.lean ====
section
/-! DEFINITION. The meaning of each command: one arm per constructor of `Instr`. -/

namespace Sys2Proof.Machine

/-- The effect of a command on the state in which `CMD` already holds its word (R27). -/
def exec (i : Instr) (s : State) : Host.Outcome State Fault Refusal :=
  match i with
  | .load => Sys2Proof.Machine.execLoad s
  | .raw => Sys2Proof.Machine.execRaw s
  | .unit32 => Sys2Proof.Machine.execUnit32 s
  | .unit64 => Sys2Proof.Machine.execUnit64 s
  | .rangef32 => Sys2Proof.Machine.execRangef32 s
  | .rangef64 => Sys2Proof.Machine.execRangef64 s
  | .rangei32 => Sys2Proof.Machine.execRangei32 s
  | .rangei64 => Sys2Proof.Machine.execRangei64 s
  | .vec2f32 => Sys2Proof.Machine.execVec2f32 s
  | .vec3f32 => Sys2Proof.Machine.execVec3f32 s
  | .vec4f32 => Sys2Proof.Machine.execVec4f32 s
  | .vec2f64 => Sys2Proof.Machine.execVec2f64 s
  | .vec3f64 => Sys2Proof.Machine.execVec3f64 s
  | .vec4f64 => Sys2Proof.Machine.execVec4f64 s
  | .index => Sys2Proof.Machine.execIndex s

end Sys2Proof.Machine
end

