-- ==== Sys2Proof/Machine/Bus.lean ====
section
/-! DEFINITION. The bus port (spec/20_memory.md R50 to R60): selecting a register, performing one
access, running the command of a `CMD` write, holding accesses while a command executes, and one cycle
of the block. -/

namespace Sys2Proof.Machine

/-- The register an access selects in the window at `base` (R51), or why it selects none: it is outside
the window (R50), or it gets the bus error of R54. -/
def selectReg (base : Nat) (a : Access) : Except Fault Reg :=
  if a.addr < base || base + 0x80 ≤ a.addr then .error .outsideWindow
  else if a.bytes ≠ 8 then .error .busError
  else match regAt (a.addr - base) with
    | some r => .ok r
    | none => .error .busError

/-- `x[CMD] <- v`, then the command that `v` encodes (R27, R57, R81). An illegal word raises
`IllegalCommand`, before any other check (R82, R84, R224). -/
def runCommand (v : Word) (s : State) : Result :=
  match decode v with
  | .ok i => exec i (writeReg .cmd v s)
  | .error _ => .next (raise .illegalCommand (writeReg .cmd v s))

/-- The block is busy for the command's latency, this step included; the write response is given when
the command ends (R60, R66, R262). -/
def occupy (v : Word) (s : State) : State :=
  let left := s.params.latency (opcOf v) - 1
  { s with
    executing := left
    response := if left = 0 then some .writeDone else none }

/-- Run the command of a `CMD` write and hold the bus for it. -/
def startCommand (v : Word) (s : State) : Result :=
  match runCommand v s with
  | .next t => .next (occupy v t)
  | .fault f => .fault f
  | .refused r => .refused r

/-- Perform one access (R54, R56, R57). -/
def perform (a : Access) (s : State) : Result :=
  match selectReg s.params.base a with
  | .error f => .fault f
  | .ok r =>
    match a.kind with
    | .read => .next { s with response := some (.readData (readReg s r)) }
    | .write v =>
      if r = .cmd then startCommand v s
      else .next { writeReg r v s with response := some .writeDone }

/-- One more step of a running command: every access is held (R60), and the response of the `CMD` write
is given in the last one. -/
def tick (s : State) : State :=
  { s with
    executing := s.executing - 1
    response := if s.executing - 1 = 0 then some .writeDone else none }

/-- What arrives at the ports in this step. -/
def State.arriving (s : State) : Cycle := s.inputs.headD Cycle.idle

/-- The state once this step's arrival is taken in, behind the accesses already waiting (R59). -/
def State.received (s : State) : State :=
  { s with
    inputs := s.inputs.tail
    waiting := s.waiting ++ s.arriving.access.toList }

/-- One cycle of the block: the reset input comes first (R251); a running command holds every access
(R60); otherwise the oldest waiting access is performed (R59); with none, the block is idle and keeps
its registers (R263). -/
def cycle (s : State) : Result :=
  if s.arriving.reset then
    .next (resetEvent s.arriving.access { s with inputs := s.inputs.tail })
  else if s.executing ≠ 0 then .next (tick s.received)
  else
    match s.received.waiting with
    | [] => .next { s.received with response := none }
    | a :: rest => perform a { s.received with waiting := rest }

/-- The host's write of a command word to `CMD`. -/
def cmdWrite (p : Params) (v : Word) : Access :=
  { addr := p.base + Reg.offset .cmd, bytes := 8, kind := .write v }

end Sys2Proof.Machine
end

