-- ==== Sys2Proof/Machine/Step.lean ====
section
/-! DEFINITION. One step of the machine, and how a command word is placed so that the next step runs
it. -/

namespace Sys2Proof.Machine

/-- One step is one cycle of the block (`Bus.lean`). -/
def step (s : State) : Host.Outcome State Fault Refusal := Sys2Proof.Machine.cycle s

/-- `s` with the command word `w` (its low `nbits` bits) about to be run: the host's write of it to `CMD`
is the oldest waiting access, the block is idle, and nothing arrives in the next step. The block fetches
nothing (R63): this write is how a command reaches it. -/
def State.withFetchWord (s : State) (nbits w : Nat) : State :=
  { s with
    executing := 0
    waiting := cmdWrite s.params (BitVec.ofNat 64 (w % 2 ^ nbits)) :: s.waiting
    inputs := Cycle.idle :: s.inputs }

end Sys2Proof.Machine
end

