-- ==== Sys2Proof/Machine/HostProgram.lean ====
section
/-! DEFINITION. Host programs (spec/30_encoding.md R89, R90): the value of a literal, the bus access a
line names, the expansion of a pseudo-instruction, the text form, and a program placed at the bus port. -/

namespace Sys2Proof.Machine

/-- A decimal float literal converted to the format, nearest-even (R89, R11). -/
def litOf (F : Format) (x : FloatLit) : FloatVal :=
  match x.exp10 with
  | .ofNat e => roundTo F x.neg (x.digits * 10 ^ e * F.one) 1
  | .negSucc e => roundTo F x.neg (x.digits * F.one) (10 ^ (e + 1))

/-- The 64-bit word a value stands for (R89). -/
def valueWord : Value → Word
  | .num n => BitVec.ofInt 64 n
  | .f32 x => resultF32 (litOf .f32 x)
  | .f64 x => resultF64 (litOf .f64 x)

/-- The access a line names (R89): direction, offset, data. -/
def lineAccess (p : Params) : Line → Access
  | .wr r v => { addr := p.base + r.offset, bytes := 8, kind := .write (valueWord v) }
  | .rd r => { addr := p.base + r.offset, bytes := 8, kind := .read }
  | .cmd i => cmdWrite p (encode i)

/-- The expansions of R90, in order. -/
def expand : Pseudo → List Line
  | .load c k => [.wr .opa c, .wr .opb k, .cmd .load]
  | .raw => [.cmd .raw]
  | .unit32 => [.cmd .unit32]
  | .unit64 => [.cmd .unit64]
  | .rangef32 a b => [.wr .opa (.f32 a), .wr .opb (.f32 b), .cmd .rangef32]
  | .rangef64 a b => [.wr .opa (.f64 a), .wr .opb (.f64 b), .cmd .rangef64]
  | .rangei32 a b => [.wr .opa (.num a), .wr .opb (.num b), .cmd .rangei32]
  | .rangei64 a b => [.wr .opa a, .wr .opb b, .cmd .rangei64]
  | .vec2f32 => [.cmd .vec2f32]
  | .vec3f32 => [.cmd .vec3f32]
  | .vec4f32 => [.cmd .vec4f32]
  | .vec2f64 => [.cmd .vec2f64]
  | .vec3f64 => [.cmd .vec3f64]
  | .vec4f64 => [.cmd .vec4f64]
  | .index n => [.wr .opa n, .cmd .index]
  | .clrerr => [.wr .status (.num 4)]
  | .save => [.rd .ctr, .rd .key]

/-- The lines of a statement. -/
def stmtLines : HostStmt → List Line
  | .line l => [l]
  | .pseudo p => expand p

/-- The accesses of a program, in order. -/
def programAccesses (p : Params) (prog : List HostStmt) : List Access :=
  (prog.flatMap stmtLines).map (lineAccess p)

/-- `s` with a program's accesses about to arrive, one a step, in order (R59). -/
def State.withProgram (s : State) (prog : List HostStmt) : State :=
  { s with
    inputs := (programAccesses s.params prog).map fun a => { reset := false, access := some a } }

/-! ## The text form (R89) -/

/-- The mnemonic column of R83. -/
def mnemonic : Instr → String
  | .load => "LOAD"
  | .raw => "RAW"
  | .unit32 => "UNIT32"
  | .unit64 => "UNIT64"
  | .rangef32 => "RANGEF32"
  | .rangef64 => "RANGEF64"
  | .rangei32 => "RANGEI32"
  | .rangei64 => "RANGEI64"
  | .vec2f32 => "VEC2F32"
  | .vec3f32 => "VEC3F32"
  | .vec4f32 => "VEC4F32"
  | .vec2f64 => "VEC2F64"
  | .vec3f64 => "VEC3F64"
  | .vec4f64 => "VEC4F64"
  | .index => "INDEX"

/-- The name column of R21. -/
def regName : Reg → String
  | .id => "ID"
  | .status => "STATUS"
  | .cmd => "CMD"
  | .opa => "OPA"
  | .opb => "OPB"
  | .ctr => "CTR"
  | .key => "KEY"
  | .r0 => "R0"
  | .r1 => "R1"
  | .r2 => "R2"
  | .r3 => "R3"

/-- The rows of R83, in order. -/
def allInstrs : List Instr :=
  [.load, .raw, .unit32, .unit64, .rangef32, .rangef64, .rangei32, .rangei64,
    .vec2f32, .vec3f32, .vec4f32, .vec2f64, .vec3f64, .vec4f64, .index]

/-- The rows of R21, in order. -/
def allRegs : List Reg := [.id, .status, .cmd, .opa, .opb, .ctr, .key, .r0, .r1, .r2, .r3]

/-- Lower case, the form names are compared in: the syntax is case-insensitive (R89). -/
def lower (s : String) : List Char := s.toList.map Char.toLower

def instrNamed (t : List Char) : Option Instr := allInstrs.find? fun i => lower (mnemonic i) == t

def regNamed (t : List Char) : Option Reg := allRegs.find? fun r => lower (regName r) == t

/-- A finished token, if it is not empty. -/
def flush (acc : List Char) (rest : List (List Char)) : List (List Char) :=
  if acc.isEmpty then rest else acc.reverse :: rest

/-- The tokens of a line in lower case; a comma is a token, blanks separate, and the rest of the line
after `--` is a remark (spec/95_test_vectors.md P5 writes one). -/
def lex : List Char → List Char → List (List Char)
  | [], acc => flush acc []
  | '-' :: '-' :: _, acc => flush acc []
  | c :: cs, acc =>
    if c = ' ' ∨ c = '\t' then flush acc (lex cs [])
    else if c = ',' then flush acc ([','] :: lex cs [])
    else lex cs (c.toLower :: acc)

/-- The value of a lower-case digit in bases up to 16. -/
def digitVal (c : Char) : Option Nat :=
  if '0' ≤ c ∧ c ≤ '9' then some (c.toNat - '0'.toNat)
  else if 'a' ≤ c ∧ c ≤ 'f' then some (c.toNat - 'a'.toNat + 10)
  else none

/-- All of the characters as digits of the base, onto a value read so far. -/
def digitsOnto (base : Nat) : List Char → Nat → Option Nat
  | [], n => some n
  | c :: cs, n =>
    match digitVal c with
    | some d => if d < base then digitsOnto base cs (base * n + d) else none
    | none => none

/-- At least one digit of the base, and nothing else. -/
def digits (base : Nat) (t : List Char) : Option Nat :=
  if t.isEmpty then none else digitsOnto base t 0

/-- A decimal literal with an optional sign (R89); the only operands of `rangei32` (R90). -/
def parseDecimal : List Char → Option Int
  | '-' :: t => (digits 10 t).map fun n => -(n : Int)
  | t => (digits 10 t).map Int.ofNat

/-- A hexadecimal literal or a decimal literal (R89). -/
def parseNum : List Char → Option Int
  | '0' :: 'x' :: t => (digits 16 t).map Int.ofNat
  | t => parseDecimal t

/-- The exponent part of a float literal. -/
def parseExp : List Char → Option Int
  | [] => some 0
  | 'e' :: '-' :: t => (digits 10 t).map fun n => -(n : Int)
  | 'e' :: '+' :: t => (digits 10 t).map Int.ofNat
  | 'e' :: t => (digits 10 t).map Int.ofNat
  | _ => none

/-- An unsigned float literal: digits, optionally a point and digits, optionally an exponent. -/
def parseUFloat (neg : Bool) (t : List Char) : Option FloatLit :=
  let mant := t.takeWhile (· != 'e')
  let whole := mant.takeWhile (· != '.')
  let frac := (mant.dropWhile (· != '.')).drop 1
  match digits 10 (whole ++ frac), parseExp (t.dropWhile (· != 'e')) with
  | some d, some e => some { neg := neg, digits := d, exp10 := e - frac.length }
  | _, _ => none

/-- A float literal with an optional sign. -/
def parseFloat : List Char → Option FloatLit
  | '-' :: t => parseUFloat true t
  | t => parseUFloat false t

/-- A value (R89). -/
def parseValue : List Char → Option Value
  | 'f' :: '3' :: '2' :: ':' :: t => (parseFloat t).map Value.f32
  | 'f' :: '6' :: '4' :: ':' :: t => (parseFloat t).map Value.f64
  | t => (parseNum t).map Value.num

/-- A pseudo-instruction without operands (R90). -/
def parsePseudo0 (w : List Char) : Option Pseudo :=
  [("raw", Pseudo.raw), ("unit32", .unit32), ("unit64", .unit64), ("vec2f32", .vec2f32),
    ("vec3f32", .vec3f32), ("vec4f32", .vec4f32), ("vec2f64", .vec2f64), ("vec3f64", .vec3f64),
    ("vec4f64", .vec4f64), ("clrerr", .clrerr), ("save", .save)].findSome?
    fun p => if p.1.toList = w then some p.2 else none

/-- A pseudo-instruction with two operands (R90). -/
def parsePseudo2 (w a b : List Char) : Option Pseudo :=
  if w = "load".toList then
    match parseValue a, parseValue b with
    | some x, some y => some (.load x y)
    | _, _ => none
  else if w = "rangei32".toList then
    match parseDecimal a, parseDecimal b with
    | some x, some y => some (.rangei32 x y)
    | _, _ => none
  else if w = "rangei64".toList then
    match parseValue a, parseValue b with
    | some x, some y => some (.rangei64 x y)
    | _, _ => none
  else if w = "rangef32".toList then
    match parseFloat a, parseFloat b with
    | some x, some y => some (.rangef32 x y)
    | _, _ => none
  else if w = "rangef64".toList then
    match parseFloat a, parseFloat b with
    | some x, some y => some (.rangef64 x y)
    | _, _ => none
  else none

/-- A statement from its tokens. -/
def parseTokens : List (List Char) → Option HostStmt
  | [w] => (parsePseudo0 w).map HostStmt.pseudo
  | [w, a] =>
    if w = "rd".toList then (regNamed a).map fun r => .line (.rd r)
    else if w = "cmd".toList then (instrNamed a).map fun i => .line (.cmd i)
    else if w = "index".toList then (parseValue a).map fun n => .pseudo (.index n)
    else none
  | [w, a, c, b] =>
    if c = [','] then
      if w = "wr".toList then
        match regNamed a, parseValue b with
        | some r, some v => some (.line (.wr r v))
        | _, _ => none
      else (parsePseudo2 w a b).map HostStmt.pseudo
    else none
  | _ => none

/-- A line of text (R89); none where it is no line of the grammar or an operand is out of the bounds of
R90. -/
def parseLine (text : List Char) : Option HostStmt :=
  match parseTokens (lex text []) with
  | some st => if st.wellFormed then some st else none
  | none => none

end Sys2Proof.Machine
end

