-- ==== Sys2Proof/Safety.lean ====
section
/-! DEFINITION. What counts as a safe run, the invariant of the machine, and the runs of commands that
the statements speak of. -/

namespace Sys2Proof.Machine

/-- Every access that waits or is still to arrive is one the block performs (R52 to R54): the host's duty
of R66. -/
def accessesOk (s : State) : Prop :=
  (∀ a ∈ s.waiting, a.wellFormed s.params.base = true) ∧
    ∀ c ∈ s.inputs, ∀ a, c.access = some a → a.wellFormed s.params.base = true

/-- The invariant of every reachable state. Before the first `LOAD` nothing has been drawn or delivered
(R252, R254); `DomainError` is reported by a created block only and `NotCreated` by one that is not
(R224); the bus is held for fewer steps than the latency of the word in `CMD` (R60, R262, in the model's
time: notes/assumptions/8.md; the hold of an illegal word is notes/assumptions/14.md). -/
structure Inv (s : State) : Prop where
  untouched : s.status.valid = false →
    s.ctr = 0 ∧ s.key = 0 ∧ s.r0 = 0 ∧ s.r1 = 0 ∧ s.r2 = 0 ∧ s.r3 = 0
  domain : s.status.err = some .domainError → s.status.valid = true
  notCreated : s.status.err = some .notCreated → s.status.valid = false
  latency : s.executing < s.params.latency (opcOf s.cmd)

/-- How the block goes on where `step` answers a fault; no step uses it. After a bus error the access is
answered with an error response and nothing else changes (the reading of R54 in notes/assumptions/3.md).
After an access outside the window the spec says nothing: that the access is dropped without a response
and nothing else changes is the model's choice (DESIGN CHOICE, notes/assumptions/4.md). -/
def goOn (s : State) : State :=
  match step s with
  | .next t => t
  | .fault .busError =>
    { s.received with waiting := s.received.waiting.tail, response := some .busError }
  | .fault .outsideWindow =>
    { s.received with waiting := s.received.waiting.tail, response := none }
  | .refused _ => s

/-- `n` steps, up to the first fault or refusal. -/
def runSteps : Nat → State → Result
  | 0, s => .next s
  | n + 1, s =>
    match step s with
    | .next t => runSteps n t
    | .fault f => .fault f
    | .refused r => .refused r

/-- The commands of a list, run one after the other on the same operands. -/
def runCommands : List Instr → State → Result
  | [], s => .next s
  | i :: is, s =>
    match exec i s with
    | .next t => runCommands is t
    | .fault f => .fault f
    | .refused r => .refused r

/-- Before a `LOAD` the command raises `NotCreated` and changes nothing but `ERR` and `STICKY` (R222,
R254). -/
def failsUncreated (i : Instr) : Prop :=
  ∀ s : State, s.status.valid = false →
    exec i s = .next { s with status := { valid := false, sticky := true, err := some .notCreated } }

/-- The magnitudes (in units) of a format's finite values: a significand of at most `mantBits + 1` bits at
some exponent, below the overflow bound. -/
def Format.Representable (F : Format) (mag : Nat) : Prop :=
  mag < 2 ^ F.overflowExp ∧ ∃ m k, m < 2 ^ (F.mantBits + 1) ∧ mag = m * 2 ^ k

/-- The rational number that is `(-1)^neg * num / den` units of the format. -/
def Format.ratio (F : Format) (neg : Bool) (num den : Nat) : ℚ :=
  (if neg then -1 else 1) * (num : ℚ) / (den * F.one)

/-- `r` is the exact number `x` rounded once to the format; an exact zero has the sign `zeroNeg`. -/
def RoundsOnce (F : Format) (r : FloatVal) (x : ℚ) (zeroNeg : Bool) : Prop :=
  ∃ neg num den, 0 < den ∧ r = roundTo F neg num den ∧ F.ratio neg num den = x ∧
    (x = 0 → neg = zeroNeg)

/-- The result registers a command has written. -/
def resultsOf (i : Instr) (t : State) : List Word := [t.r0, t.r1, t.r2, t.r3].take i.results

/-- What the host learns of each command of a list: its error, and its results where it succeeded. -/
def trace : List Instr → State → List (Option CmdError × List Word)
  | [], _ => []
  | i :: is, s =>
    match exec i s with
    | .next t => (t.status.err, if t.status.err = none then resultsOf i t else []) :: trace is t
    | .fault _ => []
    | .refused _ => []

end Sys2Proof.Machine
end

