-- ==== Sys2Proof/Certificates/Slice0/Obligations.lean ====
section
/-! DEFINITION. The statements about the model that the provers are given; each docstring names the rule
of spec/ it formalises. A scaled value is a word below 2^32 - 1 (R131). -/

open Sys2Proof Sys2Proof.Machine

/-! ## Encoding -/

/-- R83: each of the fifteen command words, written out from the opcode map, decodes to its command. -/
def Obligations.SpecWordsDecode : Prop :=
  decode 0x0000000000000001 = .ok .load ∧ decode 0x0000000000000002 = .ok .raw ∧
  decode 0x0000000000000003 = .ok .unit32 ∧ decode 0x0000000000000004 = .ok .unit64 ∧
  decode 0x0000000000000005 = .ok .rangef32 ∧ decode 0x0000000000000006 = .ok .rangef64 ∧
  decode 0x0000000000000007 = .ok .rangei32 ∧ decode 0x0000000000000008 = .ok .rangei64 ∧
  decode 0x0000000000000009 = .ok .vec2f32 ∧ decode 0x000000000000000A = .ok .vec3f32 ∧
  decode 0x000000000000000B = .ok .vec4f32 ∧ decode 0x000000000000000C = .ok .vec2f64 ∧
  decode 0x000000000000000D = .ok .vec3f64 ∧ decode 0x000000000000000E = .ok .vec4f64 ∧
  decode 0x000000000000000F = .ok .index

/-- R80, R83: of all 2^64 words, a command's own word is the one and only word that decodes to it. -/
def Obligations.DecodeAgreesWithEncode : Prop :=
  ∀ (w : Word) (i : Instr), decode w = .ok i ↔ w = encode i

/-- R81: the decoder is total. A word selects a command exactly if its `MBZ` is zero and its `OPC` lies
in 0x01 to 0x0F; it then is the row of R83 with that `OPC`, and a write of the word to `CMD` executes it;
every other word raises `IllegalCommand`. -/
def Obligations.DecoderAcceptsExactlyLegalWords : Prop :=
  ∀ w : Word,
    ((∃ i, decode w = .ok i) ↔ wordWellFormed w = true) ∧
    (∀ i, decode w = .ok i → opcode i = w.extractLsb' 0 8 ∧
      ∀ s, runCommand w s = exec i { s with cmd := w }) ∧
    (wordWellFormed w = false → ∀ s, runCommand w s = .next { s with
      cmd := w
      status := { s.status with err := some .illegalCommand, sticky := true } })

/-! ## The mixing engine -/

/-- R100, R101, R102: the mixing function on natural numbers, every product and sum taken modulo 2^64
and the rotation a swap of the two halves; the raw draw is a number of 32 bits. -/
def Obligations.MixingFunctionOnNaturals : Prop :=
  ∀ c k : Word,
    let w : Nat → Nat := fun n => n % 2 ^ 64
    let rot : Nat → Nat := fun v => v % 2 ^ 32 * 2 ^ 32 + v / 2 ^ 32
    let x0 := w (c.toNat * k.toNat)
    let y := x0
    let z := w (y + k.toNat)
    let x1 := rot (w (w (x0 * x0) + y))
    let x2 := rot (w (w (x1 * x1) + z))
    let x3 := rot (w (w (x2 * x2) + y))
    (squares c k).toNat = w (w (x3 * x3) + z) / 2 ^ 32 ∧ (squares c k).toNat < 2 ^ 32

/-- R106: with key 0 every draw is 0. The
spec marks this as its own inference (`[derived: …]`). -/
def Obligations.ZeroKeyDrawsZero : Prop :=
  ∀ c : Word, squares c 0 = 0

/-- R131: the scaled value is the raw draw itself, but for the raw draw 0xFFFFFFFF, which gives 0; it
is at most 2^32 - 2. The
spec marks this as its own inference (`[derived: …]`). -/
def Obligations.ReductionChangesOneRawDraw : Prop :=
  ∀ c k : Word,
    (squares c k ≠ 0xFFFFFFFF → reduceDraw (squares c k) = squares c k) ∧
    (squares c k = 0xFFFFFFFF → reduceDraw (squares c k) = 0) ∧
    (reduceDraw (squares c k)).toNat ≤ 4294967294

/-- R104: after `K` raw draws from a created block, `CTR` has advanced by `K` modulo 2^64, `KEY` is
unchanged, and the last draw used the counter before its own increment. -/
def Obligations.CounterProgression : Prop :=
  ∀ (K : Nat) (s : State), s.status.valid = true →
    ∃ t, runCommands (List.replicate K .raw) s = .next t ∧
      t.ctr = s.ctr + BitVec.ofNat 64 K ∧ t.key = s.key ∧ t.status.valid = true ∧
      (0 < K → t.r0 = squares (s.ctr + BitVec.ofNat 64 (K - 1)) s.key)

/-! ## The result of each command. The equality of states is also its frame: no register, flag or
field that the right side does not name changes. The block has no memory. -/

/-- R111: `LOAD` stores `OPA` and `OPB` in `CTR` and `KEY`, sets `VALID`, clears `ERR`, and changes
nothing else, whether `VALID` was 0 or 1. -/
def Obligations.LoadResult : Prop :=
  ∀ s : State, exec .load s =
    .next { s with
      ctr := s.opa
      key := s.opb
      status := { valid := true, sticky := s.status.sticky, err := none } }

/-- R116: `RAW` on a created block delivers the raw draw in `R0` and advances `CTR` by 1. -/
def Obligations.RawResult : Prop :=
  (∀ s : State, s.status.valid = true → exec .raw s =
    .next { s with
      ctr := s.ctr + 1
      r0 := squares s.ctr s.key
      status := { s.status with err := none } }) ∧
  failsUncreated .raw

/-- R137, R132, R88: `UNIT32` on a created block delivers the F32 quotient of the converted scaled value
and the converted modulus, zero-extended, and advances `CTR` by 1. -/
def Obligations.Unit32Result : Prop :=
  (∀ s : State, s.status.valid = true → exec .unit32 s =
    .next { s with
      ctr := s.ctr + 1
      r0 := resultF32 (divF .f32 (cvt .f32 (reduceDraw (squares s.ctr s.key)).toNat)
        (cvt .f32 4294967295))
      status := { s.status with err := none } }) ∧
  failsUncreated .unit32

/-- R141, R133: `UNIT64` likewise in F64. -/
def Obligations.Unit64Result : Prop :=
  (∀ s : State, s.status.valid = true → exec .unit64 s =
    .next { s with
      ctr := s.ctr + 1
      r0 := resultF64 (divF .f64 (cvt .f64 (reduceDraw (squares s.ctr s.key)).toNat)
        (cvt .f64 4294967295))
      status := { s.status with err := none } }) ∧
  failsUncreated .unit64

/-- R157, R150: `RANGEF32` on a created block delivers `add(a, mul(sub(b, a), u))`, each operation
rounded on its own. -/
def Obligations.RangeF32Result : Prop :=
  (∀ s : State, s.status.valid = true → exec .rangef32 s =
    .next { s with
      ctr := s.ctr + 1
      r0 := resultF32 (addF .f32 (operandF32 s.opa)
        (mulF .f32 (subF .f32 (operandF32 s.opb) (operandF32 s.opa))
          (unitOf .f32 (reduceDraw (squares s.ctr s.key)))))
      status := { s.status with err := none } }) ∧
  failsUncreated .rangef32

/-- R161, R151: `RANGEF64` likewise in F64. -/
def Obligations.RangeF64Result : Prop :=
  (∀ s : State, s.status.valid = true → exec .rangef64 s =
    .next { s with
      ctr := s.ctr + 1
      r0 := resultF64 (addF .f64 (operandF64 s.opa)
        (mulF .f64 (subF .f64 (operandF64 s.opb) (operandF64 s.opa))
          (unitOf .f64 (reduceDraw (squares s.ctr s.key)))))
      status := { s.status with err := none } }) ∧
  failsUncreated .rangef64

/-- R165: `RANGEI32` on a created block widens the bounds to F32, remaps, rounds by the tie rule
`ROUND_TIES` (R7, R152), saturates to 32 bits and delivers the sign-extended integer. -/
def Obligations.RangeI32Result : Prop :=
  (∀ s : State, s.status.valid = true → exec .rangei32 s =
    .next { s with
      ctr := s.ctr + 1
      r0 := resultI32 (sat 32 (rint .f32 s.params.roundTies (rangeOf .f32
        (cvt .f32 (s.opa.extractLsb' 0 32).toInt) (cvt .f32 (s.opb.extractLsb' 0 32).toInt)
        (unitOf .f32 (reduceDraw (squares s.ctr s.key))))))
      status := { s.status with err := none } }) ∧
  failsUncreated .rangei32

/-- R169: `RANGEI64` likewise in F64, on all 64 bits of the operands. -/
def Obligations.RangeI64Result : Prop :=
  (∀ s : State, s.status.valid = true → exec .rangei64 s =
    .next { s with
      ctr := s.ctr + 1
      r0 := resultI64 (sat 64 (rint .f64 s.params.roundTies (rangeOf .f64
        (cvt .f64 s.opa.toInt) (cvt .f64 s.opb.toInt)
        (unitOf .f64 (reduceDraw (squares s.ctr s.key))))))
      status := { s.status with err := none } }) ∧
  failsUncreated .rangei64

/-- R180, R181, R185, R188, R191: an F32 vector command of arity 2, 3 or 4 on a created block delivers
component `i` from the draw at counter `CTR + i` in `Ri`, keeps the other result registers and advances
`CTR` by the arity. -/
def Obligations.VectorF32Results : Prop :=
  (∀ s : State, s.status.valid = true →
    let comp : Word → Word := fun i =>
      resultF32 (rangeOf .f32 (.fin true (2 ^ 149)) (.fin false (2 ^ 149))
        (unitOf .f32 (reduceDraw (squares (s.ctr + i) s.key))))
    exec .vec2f32 s = .next { s with
      ctr := s.ctr + 2, r0 := comp 0, r1 := comp 1, status := { s.status with err := none } } ∧
    exec .vec3f32 s = .next { s with
      ctr := s.ctr + 3, r0 := comp 0, r1 := comp 1, r2 := comp 2
      status := { s.status with err := none } } ∧
    exec .vec4f32 s = .next { s with
      ctr := s.ctr + 4, r0 := comp 0, r1 := comp 1, r2 := comp 2, r3 := comp 3
      status := { s.status with err := none } }) ∧
  failsUncreated .vec2f32 ∧ failsUncreated .vec3f32 ∧ failsUncreated .vec4f32

/-- R180, R181, R194, R197, R200: the F64 vector commands likewise. -/
def Obligations.VectorF64Results : Prop :=
  (∀ s : State, s.status.valid = true →
    let comp : Word → Word := fun i =>
      resultF64 (rangeOf .f64 (.fin true (2 ^ 1074)) (.fin false (2 ^ 1074))
        (unitOf .f64 (reduceDraw (squares (s.ctr + i) s.key))))
    exec .vec2f64 s = .next { s with
      ctr := s.ctr + 2, r0 := comp 0, r1 := comp 1, status := { s.status with err := none } } ∧
    exec .vec3f64 s = .next { s with
      ctr := s.ctr + 3, r0 := comp 0, r1 := comp 1, r2 := comp 2
      status := { s.status with err := none } } ∧
    exec .vec4f64 s = .next { s with
      ctr := s.ctr + 4, r0 := comp 0, r1 := comp 1, r2 := comp 2, r3 := comp 3
      status := { s.status with err := none } }) ∧
  failsUncreated .vec2f64 ∧ failsUncreated .vec3f64 ∧ failsUncreated .vec4f64

/-- R211: `INDEX` on a created block: with `size` nonzero it delivers the scaled value modulo `size` and
draws once; with `size` zero it raises `DomainError` and draws nothing (R213). -/
def Obligations.IndexResult : Prop :=
  (∀ s : State, s.status.valid = true →
    (s.opa ≠ 0 → exec .index s = .next { s with
      ctr := s.ctr + 1
      r0 := reduceDraw (squares s.ctr s.key) % s.opa
      status := { s.status with err := none } }) ∧
    (s.opa = 0 → exec .index s = .next { s with
      status := { s.status with err := some .domainError, sticky := true } })) ∧
  failsUncreated .index

/-! ## Errors of commands -/

/-- R254, R224: every command but `LOAD` on a block that is not created raises `NotCreated`, before any
other check, and changes nothing but `ERR` and `STICKY`. -/
def Obligations.NotCreatedBeforeLoad : Prop :=
  ∀ (i : Instr) (s : State), i ≠ .load → s.status.valid = false → exec i s =
    .next { s with status := { valid := false, sticky := true, err := some .notCreated } }

/-- R221: no command stops, and the errors each command can end in: `LOAD` in none, `INDEX` in
`NotCreated` or `DomainError`, every other command in `NotCreated` only. -/
def Obligations.CommandsCompleteWithTheirErrors : Prop :=
  ∀ (i : Instr) (s : State), ∃ t, exec i s = .next t ∧
    (t.status.err = none ∨
      (t.status.err = some .notCreated ∧ i ≠ .load) ∨
      (t.status.err = some .domainError ∧ i = .index))

/-- R222: errors are precise: the state after a failed command word equals the state before it, except
`STATUS.ERR`, `STATUS.STICKY` and `CMD`, which holds the word written. -/
def Obligations.CommandErrorsArePrecise : Prop :=
  ∀ (w : Word) (s t : State) (e : CmdError), runCommand w s = .next t → t.status.err = some e →
    t = { s with cmd := w, status := { s.status with err := some e, sticky := true } }

/-- R223, R28: a command that succeeds, which is `LOAD` on any block and every other command on a created
block but for `INDEX` with size 0, writes 0 to `ERR` and leaves `STICKY` unchanged; the block is created
then. -/
def Obligations.SuccessKeepsSticky : Prop :=
  ∀ (i : Instr) (s : State), (i = .load ∨ s.status.valid = true) → (i = .index → s.opa ≠ 0) →
    ∃ t, exec i s = .next t ∧
      t.status = { valid := true, sticky := s.status.sticky, err := none }

/-- R83: a command that succeeds performs the draws of the opcode map's "draws" column, each advancing
`CTR` by 1; `LOAD`, which sets `CTR`, draws nothing. -/
def Obligations.CounterAdvancesByDraws : Prop :=
  ∀ (i : Instr) (s t : State), exec i s = .next t → t.status.err = none → i ≠ .load →
    t.ctr = s.ctr + BitVec.ofNat 64 i.draws

/-- R23 to R26: what no command changes: the operand registers and `CMD`; `KEY` but by `LOAD`; the result
registers past those the command writes; and everything of the bus port. -/
def Obligations.CommandFrame : Prop :=
  ∀ (i : Instr) (s t : State), exec i s = .next t →
    t.opa = s.opa ∧ t.opb = s.opb ∧ t.cmd = s.cmd ∧ (i ≠ .load → t.key = s.key) ∧
    (i.results < 1 → t.r0 = s.r0) ∧ (i.results < 2 → t.r1 = s.r1) ∧
    (i.results < 3 → t.r2 = s.r2) ∧ (i.results < 4 → t.r3 = s.r3) ∧
    t.executing = s.executing ∧ t.waiting = s.waiting ∧ t.inputs = s.inputs ∧
    t.response = s.response ∧ t.params = s.params ∧ t.freeIndex = s.freeIndex

/-- R82, R84: a word with `MBZ` nonzero or a reserved `OPC` raises `IllegalCommand`, whatever the block's
state; only `CMD`, `ERR` and `STICKY` change. -/
def Obligations.IllegalWordRaises : Prop :=
  ∀ (w : Word) (s : State),
    (w.extractLsb' 8 56 ≠ 0 ∨ w.extractLsb' 0 8 = 0 ∨ 0x10 ≤ (w.extractLsb' 0 8).toNat) →
    runCommand w s = .next { s with
      cmd := w
      status := { s.status with err := some .illegalCommand, sticky := true } }

/-- R224: of the errors that apply to a word exactly one is reported, the first of `IllegalCommand`,
`NotCreated` and `DomainError`; where none applies the command succeeds. -/
def Obligations.ErrorPriority : Prop :=
  ∀ (w : Word) (s : State), ∃ t, runCommand w s = .next t ∧
    t.status.err =
      if wordWellFormed w = false then some .illegalCommand
      else if w ≠ 0x01 ∧ s.status.valid = false then some .notCreated
      else if w = 0x0F ∧ s.opa = 0 then some .domainError
      else none

/-- R105: two blocks with equal `CTR`, `KEY`, operands and `STATUS` before a sequence of commands give
equal results, equal `CTR` and equal `STATUS` after it, whatever else they hold. Only for the results of
`RANGEI32` and `RANGEI64` must their parameter `ROUND_TIES` (R7) be equal too. The spec marks this as its
own inference (`[derived: …]`). -/
def Obligations.EqualGeneratorsStayEqual : Prop :=
  ∀ (cs : List Instr) (s s' : State),
    s.ctr = s'.ctr → s.key = s'.key → s.opa = s'.opa → s.opb = s'.opb → s.status = s'.status →
    ((s.params.roundTies = s'.params.roundTies ∨ (.rangei32 ∉ cs ∧ .rangei64 ∉ cs)) →
      trace cs s = trace cs s') ∧
    ∃ t t', runCommands cs s = .next t ∧ runCommands cs s' = .next t' ∧
      t.ctr = t'.ctr ∧ t.key = t'.key ∧ t.status = t'.status

/-- R255: `LOAD`ing a saved (`CTR`, `KEY`), on any block and at any time, replaces its `CTR` and `KEY` by
them and reproduces the exact continuation: every later sequence of commands, on operands the host writes
anew, gives the same errors and results as on the block that was saved. Only for `RANGEI32` and
`RANGEI64` must the two blocks' parameter `ROUND_TIES` (R7, fixed for a hardware) be the same. -/
def Obligations.StateTransplantResumes : Prop :=
  ∀ s b : State, s.status.valid = true →
    ∃ t, exec .load { b with opa := s.ctr, opb := s.key } = .next t ∧
      t.ctr = s.ctr ∧ t.key = s.key ∧
      ∀ (cs : List Instr) (x y : Word),
        (s.params.roundTies = b.params.roundTies ∨ (.rangei32 ∉ cs ∧ .rangei64 ∉ cs)) →
        trace cs { t with opa := x, opb := y } = trace cs { s with opa := x, opb := y }

/-! ## Unit values -/

/-- R134: every F32 unit value lies in [0, 1]; it is 0 exactly when the scaled value is 0, and 1 exactly
from 4294967168 on. The
spec marks this as its own inference (`[derived: …]`). -/
def Obligations.Unit32AtMostOne : Prop :=
  ∀ s : Word, s.toNat ≤ 4294967294 →
    ∃ mag, unitOf .f32 s = .fin false mag ∧ mag ≤ 2 ^ 149 ∧
      (mag = 0 ↔ s = 0) ∧ (mag = 2 ^ 149 ↔ 4294967168 ≤ s.toNat)

/-- R134: every F64 unit value lies in [0, 1): its largest value is 0x3fefffffffe00000; it is 0 exactly
when the scaled value is 0. The
spec marks this as its own inference (`[derived: …]`). -/
def Obligations.Unit64BelowOne : Prop :=
  ∀ s : Word, s.toNat ≤ 4294967294 →
    ∃ mag, unitOf .f64 s = .fin false mag ∧ mag < 2 ^ 1074 ∧ (mag = 0 ↔ s = 0) ∧
      FloatVal.le (.fin false mag) (FloatVal.ofBits .f64 0x3fefffffffe00000) = true

/-! ## Rounding and ranges -/

/-- R147, R11: the rounding `roundTo`. A finite result is a value of the format, no value of the format
is nearer to the exact quotient, and of two equally near ones it is the one with the even significand;
the result is infinite exactly from half a unit above the largest finite value on. That every operation
and conversion is this rounding of its exact result is `FloatOperationsRoundOnce`. The layout of the
formats is the model's reading of IEEE 754 (notes/assumptions/10.md). -/
def Obligations.RoundingIsNearestEven : Prop :=
  ∀ (F : Format) (neg : Bool) (num den : Nat), 0 < den →
    (∀ mag, roundTo F neg num den = .fin neg mag →
      F.Representable mag ∧ ∀ R, F.Representable R →
        ((num : Int) - mag * den).natAbs ≤ ((num : Int) - R * den).natAbs ∧
        (((num : Int) - mag * den).natAbs = ((num : Int) - R * den).natAbs → R ≠ mag →
          mag / 2 ^ (Nat.log2 mag - F.mantBits) % 2 = 0)) ∧
    (roundTo F neg num den = .inf neg ↔
      (2 * 2 ^ F.overflowExp - 2 ^ (F.overflowExp - F.mantBits - 1)) * den ≤ 2 * num) ∧
    (roundTo F neg num den = .inf neg ∨ ∃ mag, roundTo F neg num den = .fin neg mag)

/-- R11: a finite operand pattern stands for its IEEE 754 value, and each operation and conversion on
finite values rounds its exact rational result once; an exact zero has IEEE 754's sign. What the formats'
fields mean is the model's reading of IEEE 754 (notes/assumptions/10.md). -/
def Obligations.FloatOperationsRoundOnce : Prop :=
  (∀ (w : Word) (s : Bool) (m : Nat),
    (operandF32 w = .fin s m → s = w.getLsbD 31 ∧
      let e := (w.extractLsb' 23 8).toNat
      let f := (w.extractLsb' 0 23).toNat
      Format.ratio .f32 s m 1 = (if s then -1 else 1) *
        (if e = 0 then (f : ℚ) / 2 ^ 149 else (1 + (f : ℚ) / 2 ^ 23) * 2 ^ ((e : Int) - 127))) ∧
    (operandF64 w = .fin s m → s = w.getLsbD 63 ∧
      let e := (w.extractLsb' 52 11).toNat
      let f := (w.extractLsb' 0 52).toNat
      Format.ratio .f64 s m 1 = (if s then -1 else 1) *
        (if e = 0 then (f : ℚ) / 2 ^ 1074 else (1 + (f : ℚ) / 2 ^ 52) * 2 ^ ((e : Int) - 1023)))) ∧
  (∀ (F : Format) (k : Int), RoundsOnce F (cvt F k) k false) ∧
  ∀ (F : Format) (s t : Bool) (m n : Nat),
    let x := F.ratio s m 1
    let y := F.ratio t n 1
    RoundsOnce F (addF F (.fin s m) (.fin t n)) (x + y) (s && t) ∧
    RoundsOnce F (subF F (.fin s m) (.fin t n)) (x - y) (s && !t) ∧
    RoundsOnce F (mulF F (.fin s m) (.fin t n)) (x * y) (s != t) ∧
    (n ≠ 0 → RoundsOnce F (divF F (.fin s m) (.fin t n)) (x / y) (s != t))

/-- R145, R146, R87, R88, R159 (e) (f), R163 (d) (e): which operand patterns are NaNs (exponent all
ones, fraction nonzero, any payload and sign) and infinities; as a result a NaN is the canonical quiet
NaN and every other pattern, subnormals and signed zeros included, is kept bit by bit. A NaN bound gives
the canonical NaN whatever the other bound and the unit value, and so do the bounds minus and plus
infinity for every unit value. That these are the fields and patterns of the formats is the model's
reading of IEEE 754, which R11 names (PRESUMED, notes/assumptions/10.md); the spec marks the corner cases
as its own inference (`[derived: …]`). -/
def Obligations.NanRangesAreCanonical : Prop :=
  (∀ w : Word,
    let e := w.extractLsb' 23 8
    let f := w.extractLsb' 0 23
    (operandF32 w = .nan ↔ e = 0xFF ∧ f ≠ 0) ∧
    (∀ s, operandF32 w = .inf s ↔ e = 0xFF ∧ f = 0 ∧ s = w.getLsbD 31) ∧
    resultF32 (operandF32 w) =
      if e = 0xFF ∧ f ≠ 0 then 0x7FC00000 else (w.extractLsb' 0 32).zeroExtend 64) ∧
  (∀ w : Word,
    let e := w.extractLsb' 52 11
    let f := w.extractLsb' 0 52
    (operandF64 w = .nan ↔ e = 0x7FF ∧ f ≠ 0) ∧
    (∀ s, operandF64 w = .inf s ↔ e = 0x7FF ∧ f = 0 ∧ s = w.getLsbD 63) ∧
    resultF64 (operandF64 w) = if e = 0x7FF ∧ f ≠ 0 then 0x7FF8000000000000 else w) ∧
  (∀ v u : FloatVal,
    resultF32 (rangeOf .f32 .nan v u) = 0x7FC00000 ∧
    resultF32 (rangeOf .f32 v .nan u) = 0x7FC00000 ∧
    resultF64 (rangeOf .f64 .nan v u) = 0x7FF8000000000000 ∧
    resultF64 (rangeOf .f64 v .nan u) = 0x7FF8000000000000) ∧
  ∀ s : Word, s.toNat ≤ 4294967294 →
    resultF32 (rangeOf .f32 (.inf true) (.inf false) (unitOf .f32 s)) = 0x7FC00000 ∧
    resultF64 (rangeOf .f64 (.inf true) (.inf false) (unitOf .f64 s)) = 0x7FF8000000000000

/-- R159 (b) (c), R163 (b): with equal finite bounds the result is the bound for every unit value, but
for the bound -0.0, which gives +0.0. The
spec marks this as its own inference (`[derived: …]`). -/
def Obligations.EqualBoundsGiveTheBound : Prop :=
  ∀ (F : Format) (w s : Word) (neg : Bool) (mag : Nat), s.toNat ≤ 4294967294 →
    operandF F w = .fin neg mag →
    rangeOf F (operandF F w) (operandF F w) (unitOf F s) = .fin (neg && mag != 0) mag

/-- R159 (d), R163 (c): between the extreme finite values the difference overflows: the unit value 0
gives NaN and every other unit value gives plus infinity. The
spec marks this as its own inference (`[derived: …]`). -/
def Obligations.ExtremeBoundsOverflow : Prop :=
  ∀ s : Word, s.toNat ≤ 4294967294 →
    resultF32 (rangeOf .f32 (operandF32 0xff7fffff) (operandF32 0x7f7fffff) (unitOf .f32 s)) =
      (if s = 0 then 0x7FC00000 else 0x7f800000) ∧
    resultF64 (rangeOf .f64 (operandF64 0xffefffffffffffff) (operandF64 0x7fefffffffffffff)
      (unitOf .f64 s)) = (if s = 0 then 0x7FF8000000000000 else 0x7ff0000000000000)

/-- R172: for `min <= max`, both finite, with a finite difference `d = sub(max, min)`, the range result
lies in `[min, add(min, d)]`, in both formats and for every unit value. The
spec marks this as its own inference (`[derived: …]`). -/
def Obligations.FloatRangeContainment : Prop :=
  ∀ (F : Format) (a b s : Word), s.toNat ≤ 4294967294 →
    (operandF F a).isFinite = true → (operandF F b).isFinite = true →
    FloatVal.le (operandF F a) (operandF F b) = true →
    (subF F (operandF F b) (operandF F a)).isFinite = true →
    FloatVal.le (operandF F a) (rangeOf F (operandF F a) (operandF F b) (unitOf F s)) = true ∧
    FloatVal.le (rangeOf F (operandF F a) (operandF F b) (unitOf F s))
      (addF F (operandF F a) (subF F (operandF F b) (operandF F a))) = true

/-- R167, R171: the value that reaches the round-to-integer step is always finite, of magnitude at most
2^32 on the F32 path and 2^64 on the F64 path; so the free value of `rint` is never read. The
spec marks this as its own inference (`[derived: …]`). -/
def Obligations.IntegerRangeIsFinite : Prop :=
  ∀ a b s : Word, s.toNat ≤ 4294967294 →
    (∃ neg mag, rangeOf .f32 (cvt .f32 (operandI32 a)) (cvt .f32 (operandI32 b)) (unitOf .f32 s) =
      .fin neg mag ∧ mag ≤ 2 ^ 32 * 2 ^ 149) ∧
    (∃ neg mag, rangeOf .f64 (cvt .f64 (operandI64 a)) (cvt .f64 (operandI64 b)) (unitOf .f64 s) =
      .fin neg mag ∧ mag ≤ 2 ^ 64 * 2 ^ 1074)

/-- R173: when `min <= max` and the bounds and their difference are at most 2^24 (F32 path) or 2^53 (F64
path) in magnitude, the rounded and narrowed result lies in `[min, max]`, under either tie rule. The
spec marks this as its own inference (`[derived: …]`). -/
def Obligations.IntegerRangeContainment : Prop :=
  ∀ (ties : RoundTies) (a b : Int) (s : Word), s.toNat ≤ 4294967294 → a ≤ b →
    (a.natAbs ≤ 2 ^ 24 → b.natAbs ≤ 2 ^ 24 → b - a ≤ 2 ^ 24 →
      a ≤ rangeInt .f32 32 ties a b (unitOf .f32 s) ∧
      rangeInt .f32 32 ties a b (unitOf .f32 s) ≤ b) ∧
    (a.natAbs ≤ 2 ^ 53 → b.natAbs ≤ 2 ^ 53 → b - a ≤ 2 ^ 53 →
      a ≤ rangeInt .f64 64 ties a b (unitOf .f64 s) ∧
      rangeInt .f64 64 ties a b (unitOf .f64 s) ≤ b)

/-- R152: `rint` of a finite value is a nearest integer (its distance is at most half), and of a value
exactly halfway it is the even integer under `EVEN` and the one of larger magnitude under `AWAY`. -/
def Obligations.RintIsNearestInteger : Prop :=
  ∀ (F : Format) (ties : RoundTies) (neg : Bool) (mag : Nat),
    let n := rint F ties (.fin neg mag)
    let d := 2 * (n * (F.one : Int) - signedUnits neg mag)
    d.natAbs ≤ F.one ∧
    (d.natAbs = F.one →
      (ties = .even → n % 2 = 0) ∧ (ties = .away → mag < n.natAbs * F.one))

/-- R153: narrowing keeps an integer of the type's range and saturates any other at the type's bounds. -/
def Obligations.NarrowingSaturates : Prop :=
  ∀ n : Int,
    (-2 ^ 31 ≤ n → n ≤ 2 ^ 31 - 1 → sat 32 n = n) ∧
    (2 ^ 31 - 1 < n → sat 32 n = 2 ^ 31 - 1) ∧ (n < -2 ^ 31 → sat 32 n = -2 ^ 31) ∧
    (-2 ^ 63 ≤ n → n ≤ 2 ^ 63 - 1 → sat 64 n = n) ∧
    (2 ^ 63 - 1 < n → sat 64 n = 2 ^ 63 - 1) ∧ (n < -2 ^ 63 → sat 64 n = -2 ^ 63)

/-- R154: widening an integer bound is exact up to 2^24 in F32 and 2^53 in F64. -/
def Obligations.SmallBoundsWidenExactly : Prop :=
  ∀ n : Int,
    (n.natAbs ≤ 2 ^ 24 → cvt .f32 n = .fin (decide (n < 0)) (n.natAbs * 2 ^ 149)) ∧
    (n.natAbs ≤ 2 ^ 53 → cvt .f64 n = .fin (decide (n < 0)) (n.natAbs * 2 ^ 1074))

/-- R182: components lie in [-1, 1]; an F32 component is -1 exactly for the scaled values 0 to 64 and 1
exactly from 4294967168 on; an F64 component is -1 exactly for 0 and never 1. The
spec marks this as its own inference (`[derived: …]`). -/
def Obligations.ComponentRanges : Prop :=
  ∀ s : Word, s.toNat ≤ 4294967294 →
    (FloatVal.le (onePoint .f32 true) (compOf .f32 s) = true ∧
      FloatVal.le (compOf .f32 s) (onePoint .f32 false) = true ∧
      (compOf .f32 s = onePoint .f32 true ↔ s.toNat ≤ 64) ∧
      (compOf .f32 s = onePoint .f32 false ↔ 4294967168 ≤ s.toNat)) ∧
    (FloatVal.le (onePoint .f64 true) (compOf .f64 s) = true ∧
      FloatVal.le (onePoint .f64 false) (compOf .f64 s) = false ∧
      (compOf .f64 s = onePoint .f64 true ↔ s = 0))

/-- R214: the result of an `INDEX` that succeeds is below `size` and below 2^32 - 1, and it is the scaled
value itself when `size` is 2^32 - 1 or more. The
spec marks this as its own inference (`[derived: …]`). -/
def Obligations.IndexWithinSize : Prop :=
  ∀ s t : State, exec .index s = .next t → t.status.err = none →
    t.r0.toNat < s.opa.toNat ∧ t.r0.toNat < 2 ^ 32 - 1 ∧
    (2 ^ 32 - 1 ≤ s.opa.toNat → t.r0 = reduceDraw (squares s.ctr s.key))

/-! ## The registers and the bus -/

/-- R28, R220, R20: bit by bit, what `STATUS` reads: `VALID` in bit 0, `STICKY` in bit 2, the error's code
in bits 7:4 (0 for none, 1 `DomainError`, 3 `IllegalCommand`, 4 `NotCreated`), and 0 in every reserved
bit. -/
def Obligations.StatusWordLayout : Prop :=
  ∀ (s : State) (k : Nat),
    let code : BitVec 4 := match s.status.err with
      | none => 0
      | some .domainError => 1
      | some .illegalCommand => 3
      | some .notCreated => 4
    (readReg s .status).extractLsb' 4 4 = code ∧
    (readReg s .status).getLsbD k =
      ((k == 0 && s.status.valid) || (k == 2 && s.status.sticky) ||
        (decide (4 ≤ k ∧ k < 8) && code.getLsbD (k - 4)))

/-- R55: byte `k` of the register at an offset is its bits `[8k+7 : 8k]`, so the eight bytes of its
window addresses, lowest first, are the register; the offsets 0x58 to 0x7F have none (R51). -/
def Obligations.WindowIsLittleEndian : Prop :=
  ∀ s : State,
    (∀ r : Reg, ∃ b : Nat → Byte,
      (∀ k, k < 8 → windowByte s (r.offset + k) = some (b k) ∧
        b k = (readReg s r).extractLsb' (8 * k) 8) ∧
      wordOfBytes (b 0) (b 1) (b 2) (b 3) (b 4) (b 5) (b 6) (b 7) = readReg s r) ∧
    ∀ off, 0x58 ≤ off → off < 0x80 → windowByte s off = none

/-- R51 to R54: the bus selects a register exactly for a well-formed access, and then the one at the
access's offset; any other access in the window gets the bus error. -/
def Obligations.SelectionMatchesTheMap : Prop :=
  ∀ (base : Nat) (a : Access),
    (∀ r, selectReg base a = .ok r ↔ a.wellFormed base = true ∧ a.addr = base + r.offset) ∧
    (a.inWindow base = true → a.wellFormed base = false → selectReg base a = .error .busError)

/-- R54, R227: an access in the window that is misaligned, not 8 bytes wide or at a reserved offset is a
fault of the step. How the block goes on is `goOn`, the model's reading of R54 (DEDUCED,
notes/assumptions/3.md): it has answered with the error response only, and no register, no `STATUS` field
and no other part of its state has changed. -/
def Obligations.BusErrorChangesNothing : Prop :=
  ∀ (s : State) (a : Access) (rest : List Access),
    s.arriving.reset = false → s.executing = 0 → s.received.waiting = a :: rest →
    a.inWindow s.params.base = true →
    (a.bytes ≠ 8 ∨ (a.addr - s.params.base) % 8 ≠ 0 ∨ 0x58 ≤ a.addr - s.params.base) →
    step s = .fault .busError ∧
    goOn s = { s with
      inputs := s.inputs.tail, waiting := rest, response := some .busError }

/-- R56, R21, R30: a read of a mapped register returns its value (`ID` the constant) and changes
nothing. -/
def Obligations.ReadsReturnTheRegister : Prop :=
  ∀ (s : State) (r : Reg) (rest : List Access),
    s.arriving.reset = false → s.executing = 0 →
    s.received.waiting =
      { addr := s.params.base + r.offset, bytes := 8, kind := .read } :: rest →
    step s = .next { s with
      inputs := s.inputs.tail
      waiting := rest
      response := some (.readData (match r with
        | .id => 0x5351525300070001
        | .status => statusWord s.status
        | .cmd => s.cmd
        | .opa => s.opa
        | .opb => s.opb
        | .ctr => s.ctr
        | .key => s.key
        | .r0 => s.r0
        | .r1 => s.r1
        | .r2 => s.r2
        | .r3 => s.r3)) }

/-- R57, R29: a write of a register other than `CMD`: `OPA` and `OPB` take the value, bit 2 of a write
to `STATUS` clears `STICKY`, and a write to a read-only register is accepted and ignored. -/
def Obligations.WritesByRegister : Prop :=
  ∀ (s : State) (r : Reg) (v : Word) (rest : List Access),
    s.arriving.reset = false → s.executing = 0 → r ≠ .cmd →
    s.received.waiting =
      { addr := s.params.base + r.offset, bytes := 8, kind := .write v } :: rest →
    step s = .next { s with
      inputs := s.inputs.tail
      waiting := rest
      response := some .writeDone
      opa := if r = .opa then v else s.opa
      opb := if r = .opb then v else s.opb
      status := if r = .status ∧ v.getLsbD 2 = true then { s.status with sticky := false }
        else s.status }

/-- R57, R27, R81, R82, R84: a step runs the word written to `CMD`. When the oldest waiting access is the
write of any word to `CMD` and the block is idle, the step stores the word in `CMD`; if the word decodes
to `i` the step is `exec` of `i` on that state, and otherwise it raises `IllegalCommand`. Then the bus is
held for the word's latency (that a step is a bus cycle and the effects come in its first cycle is the
model's choice, notes/assumptions/8.md; the hold of an illegal word is notes/assumptions/14.md). -/
def Obligations.StepRunsTheDecodedCommand : Prop :=
  ∀ (s : State) (v : Word) (rest : List Access),
    s.arriving.reset = false → s.executing = 0 →
    s.received.waiting = cmdWrite s.params v :: rest →
    let stored := { s with inputs := s.inputs.tail, waiting := rest, cmd := v }
    let left := s.params.latency (opcOf v) - 1
    let answer := if left = 0 then some Response.writeDone else none
    (∀ i, decode v = .ok i → ∃ t, exec i stored = .next t ∧
      step s = .next { t with executing := left, response := answer }) ∧
    ((∀ i, decode v ≠ .ok i) → step s = .next { stored with
      status := { s.status with err := some .illegalCommand, sticky := true }
      executing := left
      response := answer })

/-- The word placed by `withFetchWord` is the one the next step runs, from any state (the model's own
convention, notes/assumptions/7.md). -/
def Obligations.PlacedWordRunsNext : Prop :=
  ∀ (s : State) (i : Instr),
    ∃ t, exec i { s with executing := 0, cmd := encode i } = .next t ∧
      step (s.withFetchWord 64 (encode i).toNat) = .next (occupy (encode i) t)

/-- R60: while a command executes every arriving access is held, in order, and no register changes (in
the model's time, one step a cycle: notes/assumptions/8.md). -/
def Obligations.AccessesHeldWhileExecuting : Prop :=
  ∀ s : State, s.arriving.reset = false → s.executing ≠ 0 →
    step s = .next { s with
      executing := s.executing - 1
      inputs := s.inputs.tail
      waiting := s.waiting ++ s.arriving.access.toList
      response := if s.executing = 1 then some .writeDone else none }

/-- R60, R262: the hold is bounded. If no reset arrives meanwhile, after as many steps as the command
still executes the block is idle, with every register and every earlier access as it was and the
accesses that arrived behind them in order (in the model's time: notes/assumptions/8.md). -/
def Obligations.HoldEndsWithinLatency : Prop :=
  ∀ s : State, (∀ c ∈ s.inputs.take s.executing, c.reset = false) →
    ∃ t, runSteps s.executing s = .next t ∧
      t = { s with
        executing := 0
        inputs := s.inputs.drop s.executing
        waiting := s.waiting ++ (s.inputs.take s.executing).flatMap fun c => c.access.toList
        response := if s.executing = 0 then s.response else some .writeDone }

/-- R263: with no command executing, nothing waiting and nothing arriving, the block is idle and every
register keeps its value. -/
def Obligations.IdleKeepsEveryRegister : Prop :=
  ∀ s : State, s.arriving = Cycle.idle → s.waiting = [] → s.executing = 0 →
    step s = .next { s with inputs := s.inputs.tail, response := none }

/-- R250: the reset input puts every register and field in its reset value, abandons a running command
and leaves every held or arriving access unperformed (R251); reset is the only way `VALID` returns to 0.
The model's own choices in it: the parameters and what arrives later stay (DESIGN CHOICE,
notes/assumptions/1.md, 2.md, 7.md and 9.md), and where no access was dropped and no command ran there is no
response (DESIGN CHOICE, notes/assumptions/5.md). -/
def Obligations.ResetTakesEveryRegister : Prop :=
  (∀ s : State, s.arriving.reset = true → ∃ t, step s = .next t ∧
    (∀ r, readReg t r = if r = .id then 0x5351525300070001 else 0) ∧
    t.status = { valid := false, sticky := false, err := none } ∧
    t.executing = 0 ∧ t.waiting = [] ∧ t.inputs = s.inputs.tail ∧ t.params = s.params ∧
    (s.waiting = [] → s.arriving.access = none → s.executing = 0 → t.response = none)) ∧
  ∀ s t : State, step s = .next t → s.status.valid = true → t.status.valid = false →
    s.arriving.reset = true

/-- R22, R23: whatever a step does, `CTR` changes only by a reset or a command, and `KEY` only by a reset
or a `LOAD` command, which stores `OPB` in it. That a command's effects come in the very step of its `CMD`
write, with the block idle, is the model's choice of time (DESIGN CHOICE, notes/assumptions/8.md); that no
step writes the parameters of R7 is notes/assumptions/1.md, 2.md and 9.md. -/
def Obligations.GeneratorChangesOnlyByCommandOrReset : Prop :=
  ∀ s t : State, step s = .next t → t.params = s.params ∧ (s.arriving.reset = false →
    (t.ctr ≠ s.ctr → s.executing = 0 ∧
      ∃ v rest, s.received.waiting = cmdWrite s.params v :: rest ∧ t.cmd = v) ∧
    (t.key ≠ s.key → s.executing = 0 ∧ t.key = s.opb ∧
      ∃ rest, s.received.waiting = cmdWrite s.params (encode .load) :: rest))

/-- The invariant holds at reset (its clause on the latency is the model's: DESIGN CHOICE,
notes/assumptions/8.md and 14.md), and the parameter `ROUND_TIES` has this hardware's value `EVEN` there
(R7, R152). -/
def Obligations.InvariantAtReset : Prop :=
  Inv State.reset ∧ State.reset.params.roundTies = .even

/-- Every step keeps the invariant: before the first `LOAD` the generator and the results are untouched
(R252, R254), each error is reported only in the state it belongs to (R224), and the bus is held for
fewer steps than the latency of the word in `CMD`. This last clause is the model's: it counts steps as
cycles (DESIGN CHOICE, notes/assumptions/8.md) and gives an illegal word the latency of its `OPC` (DESIGN
CHOICE, notes/assumptions/14.md). -/
def Obligations.StepKeepsInvariant : Prop :=
  ∀ s t : State, Inv s → step s = .next t → Inv t

/-- R66: where every access waiting or to come is well-formed, the machine never stops: it takes a next
step, and the accesses stay well-formed. -/
def Obligations.WellFormedAccessesNeverFault : Prop :=
  ∀ s : State, accessesOk s → ∃ t, step s = .next t ∧ accessesOk t

/-- R89, R90: the accesses of the host program lines and pseudo-instructions. `wr` and `rd` of each
register are the 8-byte write and read at its offset; an integer value is taken modulo 2^64, a float
literal is its exact decimal value rounded once to its format; `cmd` is the write of the command's word
at offset 0x10; and every pseudo-instruction expands to its lines, in order. -/
def Obligations.HostProgramAccesses : Prop :=
  ∀ p : Params,
    let at_ : Reg → Nat := fun r => p.base + match r with
      | .id => 0x00
      | .status => 0x08
      | .cmd => 0x10
      | .opa => 0x18
      | .opb => 0x20
      | .ctr => 0x28
      | .key => 0x30
      | .r0 => 0x38
      | .r1 => 0x40
      | .r2 => 0x48
      | .r3 => 0x50
    let wr : Reg → Word → Access := fun r v => { addr := at_ r, bytes := 8, kind := .write v }
    let rd : Reg → Access := fun r => { addr := at_ r, bytes := 8, kind := .read }
    let pseudo : Pseudo → List Access := fun q => programAccesses p [.pseudo q]
    (∀ (r : Reg) (n : Int) (x : FloatLit),
      programAccesses p [.line (.rd r), .line (.wr r (.num n)), .line (.wr r (.f32 x)),
          .line (.wr r (.f64 x))] =
        [rd r, wr r (BitVec.ofInt 64 n), wr r (resultF32 (litOf .f32 x)),
          wr r (resultF64 (litOf .f64 x))]) ∧
    (∀ (F : Format) (x : FloatLit), RoundsOnce F (litOf F x)
      ((if x.neg then -1 else 1) * (x.digits : ℚ) * 10 ^ x.exp10) x.neg) ∧
    (∀ i, programAccesses p [.line (.cmd i)] = [wr .cmd (encode i)]) ∧
    (∀ a b, pseudo (.load a b) = [wr .opa (valueWord a), wr .opb (valueWord b), wr .cmd 0x1]) ∧
    pseudo .raw = [wr .cmd 0x2] ∧ pseudo .unit32 = [wr .cmd 0x3] ∧
    pseudo .unit64 = [wr .cmd 0x4] ∧
    (∀ a b, pseudo (.rangef32 a b) =
      [wr .opa (resultF32 (litOf .f32 a)), wr .opb (resultF32 (litOf .f32 b)), wr .cmd 0x5]) ∧
    (∀ a b, pseudo (.rangef64 a b) =
      [wr .opa (resultF64 (litOf .f64 a)), wr .opb (resultF64 (litOf .f64 b)), wr .cmd 0x6]) ∧
    (∀ a b : Int, pseudo (.rangei32 a b) =
      [wr .opa (BitVec.ofInt 64 a), wr .opb (BitVec.ofInt 64 b), wr .cmd 0x7]) ∧
    (∀ a b, pseudo (.rangei64 a b) = [wr .opa (valueWord a), wr .opb (valueWord b), wr .cmd 0x8]) ∧
    pseudo .vec2f32 = [wr .cmd 0x9] ∧ pseudo .vec3f32 = [wr .cmd 0xA] ∧
    pseudo .vec4f32 = [wr .cmd 0xB] ∧ pseudo .vec2f64 = [wr .cmd 0xC] ∧
    pseudo .vec3f64 = [wr .cmd 0xD] ∧ pseudo .vec4f64 = [wr .cmd 0xE] ∧
    (∀ n, pseudo (.index n) = [wr .opa (valueWord n), wr .cmd 0xF]) ∧
    pseudo .clrerr = [wr .status 4] ∧ pseudo .save = [rd .ctr, rd .key]
end

