-- ==== Sys2Proof/Laws/State.lean ====
section
/-! SUPPORT. One lemma per field per update of the state: what each shared update writes, and that it keeps
every other field. No later proof unfolds an update. -/

namespace Sys2Proof.Machine

variable (s : State) (v : Word) (e : CmdError) (F : Format)

/-! ## Raising a command error (R222) -/

@[simp] theorem raise_ctr : (raise e s).ctr = s.ctr := rfl
@[simp] theorem raise_key : (raise e s).key = s.key := rfl
@[simp] theorem raise_cmd : (raise e s).cmd = s.cmd := rfl
@[simp] theorem raise_opa : (raise e s).opa = s.opa := rfl
@[simp] theorem raise_opb : (raise e s).opb = s.opb := rfl
@[simp] theorem raise_r0 : (raise e s).r0 = s.r0 := rfl
@[simp] theorem raise_r1 : (raise e s).r1 = s.r1 := rfl
@[simp] theorem raise_r2 : (raise e s).r2 = s.r2 := rfl
@[simp] theorem raise_r3 : (raise e s).r3 = s.r3 := rfl
@[simp] theorem raise_status : (raise e s).status = s.status.failed e := rfl
@[simp] theorem raise_executing : (raise e s).executing = s.executing := rfl
@[simp] theorem raise_waiting : (raise e s).waiting = s.waiting := rfl
@[simp] theorem raise_inputs : (raise e s).inputs = s.inputs := rfl
@[simp] theorem raise_response : (raise e s).response = s.response := rfl
@[simp] theorem raise_params : (raise e s).params = s.params := rfl
@[simp] theorem raise_freeIndex : (raise e s).freeIndex = s.freeIndex := rfl

/-! ## Ending a command that succeeds (R223) -/

@[simp] theorem succeed_ctr : (succeed s).ctr = s.ctr := rfl
@[simp] theorem succeed_key : (succeed s).key = s.key := rfl
@[simp] theorem succeed_cmd : (succeed s).cmd = s.cmd := rfl
@[simp] theorem succeed_opa : (succeed s).opa = s.opa := rfl
@[simp] theorem succeed_opb : (succeed s).opb = s.opb := rfl
@[simp] theorem succeed_r0 : (succeed s).r0 = s.r0 := rfl
@[simp] theorem succeed_r1 : (succeed s).r1 = s.r1 := rfl
@[simp] theorem succeed_r2 : (succeed s).r2 = s.r2 := rfl
@[simp] theorem succeed_r3 : (succeed s).r3 = s.r3 := rfl
@[simp] theorem succeed_status : (succeed s).status = s.status.succeeded := rfl
@[simp] theorem succeed_executing : (succeed s).executing = s.executing := rfl
@[simp] theorem succeed_waiting : (succeed s).waiting = s.waiting := rfl
@[simp] theorem succeed_inputs : (succeed s).inputs = s.inputs := rfl
@[simp] theorem succeed_response : (succeed s).response = s.response := rfl
@[simp] theorem succeed_params : (succeed s).params = s.params := rfl
@[simp] theorem succeed_freeIndex : (succeed s).freeIndex = s.freeIndex := rfl

/-! ## A host write of STATUS (R29) -/

@[simp] theorem acknowledge_ctr : (acknowledge v s).ctr = s.ctr := rfl
@[simp] theorem acknowledge_key : (acknowledge v s).key = s.key := rfl
@[simp] theorem acknowledge_cmd : (acknowledge v s).cmd = s.cmd := rfl
@[simp] theorem acknowledge_opa : (acknowledge v s).opa = s.opa := rfl
@[simp] theorem acknowledge_opb : (acknowledge v s).opb = s.opb := rfl
@[simp] theorem acknowledge_r0 : (acknowledge v s).r0 = s.r0 := rfl
@[simp] theorem acknowledge_r1 : (acknowledge v s).r1 = s.r1 := rfl
@[simp] theorem acknowledge_r2 : (acknowledge v s).r2 = s.r2 := rfl
@[simp] theorem acknowledge_r3 : (acknowledge v s).r3 = s.r3 := rfl
@[simp] theorem acknowledge_status : (acknowledge v s).status = s.status.hostWritten v := rfl
@[simp] theorem acknowledge_executing : (acknowledge v s).executing = s.executing := rfl
@[simp] theorem acknowledge_waiting : (acknowledge v s).waiting = s.waiting := rfl
@[simp] theorem acknowledge_inputs : (acknowledge v s).inputs = s.inputs := rfl
@[simp] theorem acknowledge_response : (acknowledge v s).response = s.response := rfl
@[simp] theorem acknowledge_params : (acknowledge v s).params = s.params := rfl
@[simp] theorem acknowledge_freeIndex : (acknowledge v s).freeIndex = s.freeIndex := rfl

/-! ## The draw (R103) -/

@[simp] theorem draw_state_ctr : ((draw s).2).ctr = s.ctr + 1 := rfl
@[simp] theorem draw_state_key : ((draw s).2).key = s.key := rfl
@[simp] theorem draw_state_cmd : ((draw s).2).cmd = s.cmd := rfl
@[simp] theorem draw_state_opa : ((draw s).2).opa = s.opa := rfl
@[simp] theorem draw_state_opb : ((draw s).2).opb = s.opb := rfl
@[simp] theorem draw_state_r0 : ((draw s).2).r0 = s.r0 := rfl
@[simp] theorem draw_state_r1 : ((draw s).2).r1 = s.r1 := rfl
@[simp] theorem draw_state_r2 : ((draw s).2).r2 = s.r2 := rfl
@[simp] theorem draw_state_r3 : ((draw s).2).r3 = s.r3 := rfl
@[simp] theorem draw_state_status : ((draw s).2).status = s.status := rfl
@[simp] theorem draw_state_executing : ((draw s).2).executing = s.executing := rfl
@[simp] theorem draw_state_waiting : ((draw s).2).waiting = s.waiting := rfl
@[simp] theorem draw_state_inputs : ((draw s).2).inputs = s.inputs := rfl
@[simp] theorem draw_state_response : ((draw s).2).response = s.response := rfl
@[simp] theorem draw_state_params : ((draw s).2).params = s.params := rfl
@[simp] theorem draw_state_freeIndex : ((draw s).2).freeIndex = s.freeIndex := rfl

/-! ## The scaled draw (R130) -/

@[simp] theorem scaled_state_ctr : ((scaled s).2).ctr = s.ctr + 1 := rfl
@[simp] theorem scaled_state_key : ((scaled s).2).key = s.key := rfl
@[simp] theorem scaled_state_cmd : ((scaled s).2).cmd = s.cmd := rfl
@[simp] theorem scaled_state_opa : ((scaled s).2).opa = s.opa := rfl
@[simp] theorem scaled_state_opb : ((scaled s).2).opb = s.opb := rfl
@[simp] theorem scaled_state_r0 : ((scaled s).2).r0 = s.r0 := rfl
@[simp] theorem scaled_state_r1 : ((scaled s).2).r1 = s.r1 := rfl
@[simp] theorem scaled_state_r2 : ((scaled s).2).r2 = s.r2 := rfl
@[simp] theorem scaled_state_r3 : ((scaled s).2).r3 = s.r3 := rfl
@[simp] theorem scaled_state_status : ((scaled s).2).status = s.status := rfl
@[simp] theorem scaled_state_executing : ((scaled s).2).executing = s.executing := rfl
@[simp] theorem scaled_state_waiting : ((scaled s).2).waiting = s.waiting := rfl
@[simp] theorem scaled_state_inputs : ((scaled s).2).inputs = s.inputs := rfl
@[simp] theorem scaled_state_response : ((scaled s).2).response = s.response := rfl
@[simp] theorem scaled_state_params : ((scaled s).2).params = s.params := rfl
@[simp] theorem scaled_state_freeIndex : ((scaled s).2).freeIndex = s.freeIndex := rfl

/-! ## The unit draw (R132, R133) -/

@[simp] theorem drawUnit_state_ctr : ((drawUnit F s).2).ctr = s.ctr + 1 := rfl
@[simp] theorem drawUnit_state_key : ((drawUnit F s).2).key = s.key := rfl
@[simp] theorem drawUnit_state_cmd : ((drawUnit F s).2).cmd = s.cmd := rfl
@[simp] theorem drawUnit_state_opa : ((drawUnit F s).2).opa = s.opa := rfl
@[simp] theorem drawUnit_state_opb : ((drawUnit F s).2).opb = s.opb := rfl
@[simp] theorem drawUnit_state_r0 : ((drawUnit F s).2).r0 = s.r0 := rfl
@[simp] theorem drawUnit_state_r1 : ((drawUnit F s).2).r1 = s.r1 := rfl
@[simp] theorem drawUnit_state_r2 : ((drawUnit F s).2).r2 = s.r2 := rfl
@[simp] theorem drawUnit_state_r3 : ((drawUnit F s).2).r3 = s.r3 := rfl
@[simp] theorem drawUnit_state_status : ((drawUnit F s).2).status = s.status := rfl
@[simp] theorem drawUnit_state_executing : ((drawUnit F s).2).executing = s.executing := rfl
@[simp] theorem drawUnit_state_waiting : ((drawUnit F s).2).waiting = s.waiting := rfl
@[simp] theorem drawUnit_state_inputs : ((drawUnit F s).2).inputs = s.inputs := rfl
@[simp] theorem drawUnit_state_response : ((drawUnit F s).2).response = s.response := rfl
@[simp] theorem drawUnit_state_params : ((drawUnit F s).2).params = s.params := rfl
@[simp] theorem drawUnit_state_freeIndex : ((drawUnit F s).2).freeIndex = s.freeIndex := rfl

/-! ## The component draw (R180) -/

@[simp] theorem drawComp_state_ctr : ((drawComp F s).2).ctr = s.ctr + 1 := rfl
@[simp] theorem drawComp_state_key : ((drawComp F s).2).key = s.key := rfl
@[simp] theorem drawComp_state_cmd : ((drawComp F s).2).cmd = s.cmd := rfl
@[simp] theorem drawComp_state_opa : ((drawComp F s).2).opa = s.opa := rfl
@[simp] theorem drawComp_state_opb : ((drawComp F s).2).opb = s.opb := rfl
@[simp] theorem drawComp_state_r0 : ((drawComp F s).2).r0 = s.r0 := rfl
@[simp] theorem drawComp_state_r1 : ((drawComp F s).2).r1 = s.r1 := rfl
@[simp] theorem drawComp_state_r2 : ((drawComp F s).2).r2 = s.r2 := rfl
@[simp] theorem drawComp_state_r3 : ((drawComp F s).2).r3 = s.r3 := rfl
@[simp] theorem drawComp_state_status : ((drawComp F s).2).status = s.status := rfl
@[simp] theorem drawComp_state_executing : ((drawComp F s).2).executing = s.executing := rfl
@[simp] theorem drawComp_state_waiting : ((drawComp F s).2).waiting = s.waiting := rfl
@[simp] theorem drawComp_state_inputs : ((drawComp F s).2).inputs = s.inputs := rfl
@[simp] theorem drawComp_state_response : ((drawComp F s).2).response = s.response := rfl
@[simp] theorem drawComp_state_params : ((drawComp F s).2).params = s.params := rfl
@[simp] theorem drawComp_state_freeIndex : ((drawComp F s).2).freeIndex = s.freeIndex := rfl

/-! ## A result into R0 (R26) -/

@[simp] theorem setResult_0_ctr : (setResult 0 v s).ctr = s.ctr := rfl
@[simp] theorem setResult_0_key : (setResult 0 v s).key = s.key := rfl
@[simp] theorem setResult_0_cmd : (setResult 0 v s).cmd = s.cmd := rfl
@[simp] theorem setResult_0_opa : (setResult 0 v s).opa = s.opa := rfl
@[simp] theorem setResult_0_opb : (setResult 0 v s).opb = s.opb := rfl
@[simp] theorem setResult_0_r0 : (setResult 0 v s).r0 = v := rfl
@[simp] theorem setResult_0_r1 : (setResult 0 v s).r1 = s.r1 := rfl
@[simp] theorem setResult_0_r2 : (setResult 0 v s).r2 = s.r2 := rfl
@[simp] theorem setResult_0_r3 : (setResult 0 v s).r3 = s.r3 := rfl
@[simp] theorem setResult_0_status : (setResult 0 v s).status = s.status := rfl
@[simp] theorem setResult_0_executing : (setResult 0 v s).executing = s.executing := rfl
@[simp] theorem setResult_0_waiting : (setResult 0 v s).waiting = s.waiting := rfl
@[simp] theorem setResult_0_inputs : (setResult 0 v s).inputs = s.inputs := rfl
@[simp] theorem setResult_0_response : (setResult 0 v s).response = s.response := rfl
@[simp] theorem setResult_0_params : (setResult 0 v s).params = s.params := rfl
@[simp] theorem setResult_0_freeIndex : (setResult 0 v s).freeIndex = s.freeIndex := rfl

/-! ## A result into R1 (R26) -/

@[simp] theorem setResult_1_ctr : (setResult 1 v s).ctr = s.ctr := rfl
@[simp] theorem setResult_1_key : (setResult 1 v s).key = s.key := rfl
@[simp] theorem setResult_1_cmd : (setResult 1 v s).cmd = s.cmd := rfl
@[simp] theorem setResult_1_opa : (setResult 1 v s).opa = s.opa := rfl
@[simp] theorem setResult_1_opb : (setResult 1 v s).opb = s.opb := rfl
@[simp] theorem setResult_1_r0 : (setResult 1 v s).r0 = s.r0 := rfl
@[simp] theorem setResult_1_r1 : (setResult 1 v s).r1 = v := rfl
@[simp] theorem setResult_1_r2 : (setResult 1 v s).r2 = s.r2 := rfl
@[simp] theorem setResult_1_r3 : (setResult 1 v s).r3 = s.r3 := rfl
@[simp] theorem setResult_1_status : (setResult 1 v s).status = s.status := rfl
@[simp] theorem setResult_1_executing : (setResult 1 v s).executing = s.executing := rfl
@[simp] theorem setResult_1_waiting : (setResult 1 v s).waiting = s.waiting := rfl
@[simp] theorem setResult_1_inputs : (setResult 1 v s).inputs = s.inputs := rfl
@[simp] theorem setResult_1_response : (setResult 1 v s).response = s.response := rfl
@[simp] theorem setResult_1_params : (setResult 1 v s).params = s.params := rfl
@[simp] theorem setResult_1_freeIndex : (setResult 1 v s).freeIndex = s.freeIndex := rfl

/-! ## A result into R2 (R26) -/

@[simp] theorem setResult_2_ctr : (setResult 2 v s).ctr = s.ctr := rfl
@[simp] theorem setResult_2_key : (setResult 2 v s).key = s.key := rfl
@[simp] theorem setResult_2_cmd : (setResult 2 v s).cmd = s.cmd := rfl
@[simp] theorem setResult_2_opa : (setResult 2 v s).opa = s.opa := rfl
@[simp] theorem setResult_2_opb : (setResult 2 v s).opb = s.opb := rfl
@[simp] theorem setResult_2_r0 : (setResult 2 v s).r0 = s.r0 := rfl
@[simp] theorem setResult_2_r1 : (setResult 2 v s).r1 = s.r1 := rfl
@[simp] theorem setResult_2_r2 : (setResult 2 v s).r2 = v := rfl
@[simp] theorem setResult_2_r3 : (setResult 2 v s).r3 = s.r3 := rfl
@[simp] theorem setResult_2_status : (setResult 2 v s).status = s.status := rfl
@[simp] theorem setResult_2_executing : (setResult 2 v s).executing = s.executing := rfl
@[simp] theorem setResult_2_waiting : (setResult 2 v s).waiting = s.waiting := rfl
@[simp] theorem setResult_2_inputs : (setResult 2 v s).inputs = s.inputs := rfl
@[simp] theorem setResult_2_response : (setResult 2 v s).response = s.response := rfl
@[simp] theorem setResult_2_params : (setResult 2 v s).params = s.params := rfl
@[simp] theorem setResult_2_freeIndex : (setResult 2 v s).freeIndex = s.freeIndex := rfl

/-! ## A result into R3 (R26) -/

@[simp] theorem setResult_3_ctr : (setResult 3 v s).ctr = s.ctr := rfl
@[simp] theorem setResult_3_key : (setResult 3 v s).key = s.key := rfl
@[simp] theorem setResult_3_cmd : (setResult 3 v s).cmd = s.cmd := rfl
@[simp] theorem setResult_3_opa : (setResult 3 v s).opa = s.opa := rfl
@[simp] theorem setResult_3_opb : (setResult 3 v s).opb = s.opb := rfl
@[simp] theorem setResult_3_r0 : (setResult 3 v s).r0 = s.r0 := rfl
@[simp] theorem setResult_3_r1 : (setResult 3 v s).r1 = s.r1 := rfl
@[simp] theorem setResult_3_r2 : (setResult 3 v s).r2 = s.r2 := rfl
@[simp] theorem setResult_3_r3 : (setResult 3 v s).r3 = v := rfl
@[simp] theorem setResult_3_status : (setResult 3 v s).status = s.status := rfl
@[simp] theorem setResult_3_executing : (setResult 3 v s).executing = s.executing := rfl
@[simp] theorem setResult_3_waiting : (setResult 3 v s).waiting = s.waiting := rfl
@[simp] theorem setResult_3_inputs : (setResult 3 v s).inputs = s.inputs := rfl
@[simp] theorem setResult_3_response : (setResult 3 v s).response = s.response := rfl
@[simp] theorem setResult_3_params : (setResult 3 v s).params = s.params := rfl
@[simp] theorem setResult_3_freeIndex : (setResult 3 v s).freeIndex = s.freeIndex := rfl

/-! ## One step of a running command (R60) -/

@[simp] theorem tick_ctr : (tick s).ctr = s.ctr := rfl
@[simp] theorem tick_key : (tick s).key = s.key := rfl
@[simp] theorem tick_cmd : (tick s).cmd = s.cmd := rfl
@[simp] theorem tick_opa : (tick s).opa = s.opa := rfl
@[simp] theorem tick_opb : (tick s).opb = s.opb := rfl
@[simp] theorem tick_r0 : (tick s).r0 = s.r0 := rfl
@[simp] theorem tick_r1 : (tick s).r1 = s.r1 := rfl
@[simp] theorem tick_r2 : (tick s).r2 = s.r2 := rfl
@[simp] theorem tick_r3 : (tick s).r3 = s.r3 := rfl
@[simp] theorem tick_status : (tick s).status = s.status := rfl
@[simp] theorem tick_executing : (tick s).executing = s.executing - 1 := rfl
@[simp] theorem tick_waiting : (tick s).waiting = s.waiting := rfl
@[simp] theorem tick_inputs : (tick s).inputs = s.inputs := rfl
@[simp] theorem tick_response : (tick s).response = if s.executing - 1 = 0 then some .writeDone else none := rfl
@[simp] theorem tick_params : (tick s).params = s.params := rfl
@[simp] theorem tick_freeIndex : (tick s).freeIndex = s.freeIndex := rfl

/-! ## The start of a running command (R60, R262) -/

@[simp] theorem occupy_ctr : (occupy v s).ctr = s.ctr := rfl
@[simp] theorem occupy_key : (occupy v s).key = s.key := rfl
@[simp] theorem occupy_cmd : (occupy v s).cmd = s.cmd := rfl
@[simp] theorem occupy_opa : (occupy v s).opa = s.opa := rfl
@[simp] theorem occupy_opb : (occupy v s).opb = s.opb := rfl
@[simp] theorem occupy_r0 : (occupy v s).r0 = s.r0 := rfl
@[simp] theorem occupy_r1 : (occupy v s).r1 = s.r1 := rfl
@[simp] theorem occupy_r2 : (occupy v s).r2 = s.r2 := rfl
@[simp] theorem occupy_r3 : (occupy v s).r3 = s.r3 := rfl
@[simp] theorem occupy_status : (occupy v s).status = s.status := rfl
@[simp] theorem occupy_executing : (occupy v s).executing = s.params.latency (opcOf v) - 1 := rfl
@[simp] theorem occupy_waiting : (occupy v s).waiting = s.waiting := rfl
@[simp] theorem occupy_inputs : (occupy v s).inputs = s.inputs := rfl
@[simp] theorem occupy_response : (occupy v s).response = if s.params.latency (opcOf v) - 1 = 0 then some .writeDone else none := rfl
@[simp] theorem occupy_params : (occupy v s).params = s.params := rfl
@[simp] theorem occupy_freeIndex : (occupy v s).freeIndex = s.freeIndex := rfl

/-! ## Taking in an arrival (R59) -/

@[simp] theorem received_ctr : (s.received).ctr = s.ctr := rfl
@[simp] theorem received_key : (s.received).key = s.key := rfl
@[simp] theorem received_cmd : (s.received).cmd = s.cmd := rfl
@[simp] theorem received_opa : (s.received).opa = s.opa := rfl
@[simp] theorem received_opb : (s.received).opb = s.opb := rfl
@[simp] theorem received_r0 : (s.received).r0 = s.r0 := rfl
@[simp] theorem received_r1 : (s.received).r1 = s.r1 := rfl
@[simp] theorem received_r2 : (s.received).r2 = s.r2 := rfl
@[simp] theorem received_r3 : (s.received).r3 = s.r3 := rfl
@[simp] theorem received_status : (s.received).status = s.status := rfl
@[simp] theorem received_executing : (s.received).executing = s.executing := rfl
@[simp] theorem received_waiting : (s.received).waiting = s.waiting ++ s.arriving.access.toList := rfl
@[simp] theorem received_inputs : (s.received).inputs = s.inputs.tail := rfl
@[simp] theorem received_response : (s.received).response = s.response := rfl
@[simp] theorem received_params : (s.received).params = s.params := rfl
@[simp] theorem received_freeIndex : (s.received).freeIndex = s.freeIndex := rfl

/-! ## The fields of STATUS -/

@[simp] theorem failed_valid (st : Status) : (st.failed e).valid = st.valid := rfl
@[simp] theorem failed_sticky (st : Status) : (st.failed e).sticky = true := rfl
@[simp] theorem failed_err (st : Status) : (st.failed e).err = some e := rfl
@[simp] theorem succeeded_valid (st : Status) : st.succeeded.valid = st.valid := rfl
@[simp] theorem succeeded_sticky (st : Status) : st.succeeded.sticky = st.sticky := rfl
@[simp] theorem succeeded_err (st : Status) : st.succeeded.err = none := rfl

@[simp] theorem hostWritten_valid (st : Status) : (st.hostWritten v).valid = st.valid := by
  unfold Status.hostWritten; split <;> rfl

@[simp] theorem hostWritten_err (st : Status) : (st.hostWritten v).err = st.err := by
  unfold Status.hostWritten; split <;> rfl

end Sys2Proof.Machine
end

