-- ==== Sys2Proof/Laws/Ops.lean ====
section
/-! SUPPORT. What each shared operation of the commands can do, once: the guard of a created block, the
delivery of a scalar, the vector loop, the raw draw's and the scaled value's bounds. -/

namespace Sys2Proof.Machine

/-- The guard: a created block runs, another raises `NotCreated` (R254). -/
theorem whenCreated_created {s : State} (h : s.status.valid = true) (run : State → Result) :
    whenCreated s run = run s := if_pos h

theorem whenCreated_uncreated {s : State} (h : s.status.valid = false) (run : State → Result) :
    whenCreated s run = .next (raise .notCreated s) := by
  simp [whenCreated, h]

/-- If the guard answers `t`, then either the block is created and the body answered `t`, or `t` is the
`NotCreated` error. -/
theorem whenCreated_next {s t : State} {run : State → Result} (h : whenCreated s run = .next t) :
    (s.status.valid = true ∧ run s = .next t) ∨
      (s.status.valid = false ∧ t = raise .notCreated s) := by
  unfold whenCreated at h
  split at h
  · exact .inl ⟨by assumption, h⟩
  · cases h
    exact .inr ⟨by simpa using ‹¬s.status.valid = true›, rfl⟩

/-- The vector loop draws once per register listed. -/
theorem fillComps_ctr (F : Format) (regs : List (Fin 4)) (s : State) :
    (fillComps F regs s).ctr = s.ctr + BitVec.ofNat 64 regs.length := by
  induction regs generalizing s with
  | nil => simp [fillComps]
  | cons i rest ih =>
    rw [fillComps, ih]
    have : ∀ v t, (setResult i v t).ctr = t.ctr := fun v t => by
      match i with
      | 0 => rfl
      | 1 => rfl
      | 2 => rfl
      | 3 => rfl
    rw [this, drawComp_state_ctr, List.length_cons, BitVec.add_assoc]
    congr 1
    apply BitVec.eq_of_toNat_eq
    simp [Nat.add_comm]

/-- The vector loop writes result registers and `CTR`, nothing else. -/
theorem fillComps_frame (F : Format) (regs : List (Fin 4)) (s : State) :
    ∃ c a0 a1 a2 a3, fillComps F regs s =
      { s with ctr := c, r0 := a0, r1 := a1, r2 := a2, r3 := a3 } := by
  induction regs generalizing s with
  | nil => exact ⟨_, _, _, _, _, rfl⟩
  | cons i rest ih =>
    obtain ⟨c, a0, a1, a2, a3, h⟩ := ih (setResult i (resultF F (drawComp F s).1) (drawComp F s).2)
    refine ⟨c, a0, a1, a2, a3, ?_⟩
    rw [fillComps, h]
    match i with
    | 0 => rfl
    | 1 => rfl
    | 2 => rfl
    | 3 => rfl

/-- The raw draw has 32 bits (R101). -/
theorem squares_lt (c k : Word) : (squares c k).toNat < 2 ^ 32 := by
  unfold squares
  simp only [BitVec.toNat_ushiftRight, Nat.shiftRight_eq_div_pow]
  exact Nat.div_lt_of_lt_mul (by rw [← Nat.pow_add]; exact BitVec.isLt _)

/-- The scaled value lies below the modulus (R131). -/
theorem reduceDraw_lt (r : Word) : (reduceDraw r).toNat ≤ 4294967294 := by
  unfold reduceDraw
  rw [BitVec.toNat_umod]
  have := Nat.mod_lt r.toNat (show (4294967295 : Word).toNat > 0 by decide)
  have e : (4294967295 : Word).toNat = 4294967295 := by decide
  omega

end Sys2Proof.Machine
end

