-- ==== Sys2Proof/Laws/Bus.lean ====
section
/-! SUPPORT. What the bus can do, once: the offset decoder, the selection of a register, one access, one
cycle of the block. -/

namespace Sys2Proof.Machine

/-- The offset decoder inverts the offset column (R51). -/
theorem regAt_offset (r : Reg) : regAt r.offset = some r := by cases r <;> rfl

theorem regAt_eq_some {off : Nat} {r : Reg} (h : regAt off = some r) : off = r.offset := by
  unfold regAt at h
  split at h <;> cases h <;> rfl

/-- Every aligned offset below the reserved ones is mapped (R51, R53). -/
theorem regAt_isSome {off : Nat} (ha : off % 8 = 0) (hr : off < 0x58) :
    ∃ r, regAt off = some r := by
  have : off = 8 * (off / 8) := by omega
  have hq : off / 8 < 11 := by omega
  rw [this]
  generalize off / 8 = q at hq
  interval_cases q <;> exact ⟨_, rfl⟩

theorem offset_lt (r : Reg) : r.offset < 0x58 := by cases r <;> decide

theorem offset_aligned (r : Reg) : r.offset % 8 = 0 := by cases r <;> rfl

/-- An 8-byte access at a register's offset selects it. -/
theorem selectReg_offset (base : Nat) (r : Reg) (kind : AccessKind) :
    selectReg base { addr := base + r.offset, bytes := 8, kind := kind } = .ok r := by
  have := offset_lt r
  simp [selectReg, regAt_offset]
  omega

/-- A selected access is 8 bytes wide and at the register's offset. -/
theorem selectReg_ok {base : Nat} {a : Access} {r : Reg} (h : selectReg base a = .ok r) :
    a.bytes = 8 ∧ a.addr = base + r.offset := by
  unfold selectReg at h
  split at h
  · cases h
  · rename_i hw
    split at h
    · cases h
    · split at h
      · cases h
        have := regAt_eq_some ‹_›
        simp at hw
        omega
      · cases h

/-- One access either performs a read, or a write other than to `CMD`, or runs a command, or faults. -/
theorem perform_next {a : Access} {s t : State} (h : perform a s = .next t) :
    (∃ r, a = ⟨s.params.base + r.offset, 8, .read⟩ ∧
      t = { s with response := some (.readData (readReg s r)) }) ∨
    (∃ r v, r ≠ .cmd ∧ a = ⟨s.params.base + r.offset, 8, .write v⟩ ∧
      t = { writeReg r v s with response := some .writeDone }) ∨
    (∃ v u, a = cmdWrite s.params v ∧ runCommand v s = .next u ∧ t = occupy v u) := by
  obtain ⟨addr, bytes, kind⟩ := a
  unfold perform at h
  split at h
  · cases h
  · rename_i r hr
    obtain ⟨hb, ha⟩ := selectReg_ok hr
    simp only at hb ha
    subst hb ha
    cases kind with
    | read => cases h; exact .inl ⟨r, rfl, rfl⟩
    | write v =>
      simp only at h
      split at h
      · rename_i hc
        subst hc
        refine .inr (.inr ?_)
        unfold startCommand at h
        split at h
        · cases h; exact ⟨v, _, rfl, by assumption, rfl⟩
        · cases h
        · cases h
      · cases h; exact .inr (.inl ⟨r, v, by assumption, rfl, rfl⟩)

/-- One step is a reset, one more step of a running command, an idle step, or one access. -/
theorem step_next {s t : State} (h : step s = .next t) :
    (s.arriving.reset = true ∧
      t = resetEvent s.arriving.access { s with inputs := s.inputs.tail }) ∨
    (s.arriving.reset = false ∧ s.executing ≠ 0 ∧ t = tick s.received) ∨
    (s.arriving.reset = false ∧ s.executing = 0 ∧ s.received.waiting = [] ∧
      t = { s.received with response := none }) ∨
    (s.arriving.reset = false ∧ s.executing = 0 ∧ ∃ a rest, s.received.waiting = a :: rest ∧
      perform a { s.received with waiting := rest } = .next t) := by
  unfold step cycle at h
  split at h
  · cases h; exact .inl ⟨by assumption, rfl⟩
  · have hr : s.arriving.reset = false := by simpa using ‹¬s.arriving.reset = true›
    split at h
    · cases h; exact .inr (.inl ⟨hr, by assumption, rfl⟩)
    · have he : s.executing = 0 := by simpa using ‹¬s.executing ≠ 0›
      split at h
      · cases h; exact .inr (.inr (.inl ⟨hr, he, by assumption, rfl⟩))
      · exact .inr (.inr (.inr ⟨hr, he, _, _, by assumption, h⟩))

/-- A step that performs the oldest waiting access. -/
theorem step_perform {s : State} {a : Access} {rest : List Access}
    (hr : s.arriving.reset = false) (he : s.executing = 0) (hw : s.received.waiting = a :: rest) :
    step s = perform a { s.received with waiting := rest } := by
  unfold step cycle
  simp only [hr, he, hw]
  rfl

end Sys2Proof.Machine
end

