-- ==== Sys2Proof/Laws/Exec.lean ====
section
/-! SUPPORT. Everything a command can do, said once (`exec_cases`): `LOAD`, the two errors, or a success
that writes the command's own results, `CTR` and `ERR`. -/

namespace Sys2Proof.Machine

/-- `t` is `s` after a success of `i`, which is not `LOAD`: `CTR` advanced by the command's draws, `ERR`
clear, and no result register written past the command's own. -/
def Succeeds (i : Instr) (s t : State) : Prop :=
  t = { s with
      ctr := s.ctr + BitVec.ofNat 64 i.draws
      r0 := t.r0
      r1 := t.r1
      r2 := t.r2
      r3 := t.r3
      status := s.status.succeeded } ∧
    (i.results < 1 → t.r0 = s.r0) ∧ (i.results < 2 → t.r1 = s.r1) ∧
    (i.results < 3 → t.r2 = s.r2) ∧ (i.results < 4 → t.r3 = s.r3)

/-! The fields of a success. -/

variable {i : Instr} {s t : State}

theorem succeeds_ctr (h : Succeeds i s t) : t.ctr = s.ctr + BitVec.ofNat 64 i.draws := by
  have := congrArg State.ctr h.1; exact this
theorem succeeds_status (h : Succeeds i s t) : t.status = s.status.succeeded := by
  have := congrArg State.status h.1; exact this
theorem succeeds_key (h : Succeeds i s t) : t.key = s.key := by
  have := congrArg State.key h.1; exact this
theorem succeeds_cmd (h : Succeeds i s t) : t.cmd = s.cmd := by
  have := congrArg State.cmd h.1; exact this
theorem succeeds_opa (h : Succeeds i s t) : t.opa = s.opa := by
  have := congrArg State.opa h.1; exact this
theorem succeeds_opb (h : Succeeds i s t) : t.opb = s.opb := by
  have := congrArg State.opb h.1; exact this
theorem succeeds_executing (h : Succeeds i s t) : t.executing = s.executing := by
  have := congrArg State.executing h.1; exact this
theorem succeeds_waiting (h : Succeeds i s t) : t.waiting = s.waiting := by
  have := congrArg State.waiting h.1; exact this
theorem succeeds_inputs (h : Succeeds i s t) : t.inputs = s.inputs := by
  have := congrArg State.inputs h.1; exact this
theorem succeeds_response (h : Succeeds i s t) : t.response = s.response := by
  have := congrArg State.response h.1; exact this
theorem succeeds_params (h : Succeeds i s t) : t.params = s.params := by
  have := congrArg State.params h.1; exact this
theorem succeeds_freeIndex (h : Succeeds i s t) : t.freeIndex = s.freeIndex := by
  have := congrArg State.freeIndex h.1; exact this

theorem exec_load (s : State) : exec .load s =
    .next { s with
      ctr := s.opa
      key := s.opb
      status := { s.status.succeeded with valid := true } } := rfl

/-- A scalar command: one draw, one result. -/
theorem succeeds_deliver {i : Instr} {s u : State} (v : Word) (hd : i.draws = 1)
    (hr : i.results = 1) (hu : u = { s with ctr := s.ctr + 1 }) :
    ∃ t, deliver v u = .next t ∧ Succeeds i s t := by
  subst hu
  refine ⟨_, rfl, ?_, ?_, fun _ => rfl, fun _ => rfl, fun _ => rfl⟩
  · rw [hd]; rfl
  · intro h; omega

theorem scaled_state (s : State) : (scaled s).2 = { s with ctr := s.ctr + 1 } := rfl

theorem drawUnit_state (F : Format) (s : State) :
    (drawUnit F s).2 = { s with ctr := s.ctr + 1 } := rfl

/-- A vector command: as many draws as results. -/
theorem succeeds_vector {F : Format} {s : State} (hv : s.status.valid = true) :
    (∀ i : Instr, i.draws = 2 → i.results = 2 →
      ∃ t, vectorOp F [0, 1] s = .next t ∧ Succeeds i s t) ∧
    (∀ i : Instr, i.draws = 3 → i.results = 3 →
      ∃ t, vectorOp F [0, 1, 2] s = .next t ∧ Succeeds i s t) ∧
    (∀ i : Instr, i.draws = 4 → i.results = 4 →
      ∃ t, vectorOp F [0, 1, 2, 3] s = .next t ∧ Succeeds i s t) := by
  refine ⟨fun i hd hr => ?_, fun i hd hr => ?_, fun i hd hr => ?_⟩ <;>
    rw [vectorOp, whenCreated_created hv] <;>
    refine ⟨_, rfl, ?_, ?_, ?_, ?_, ?_⟩
  case refine_1.refine_1 | refine_2.refine_1 | refine_3.refine_1 =>
    rw [hd]
    simp only [fillComps, drawComp, scaled, draw, setResult, succeed, BitVec.add_assoc]
    rfl
  all_goals first | exact fun _ => rfl | (intro h; omega)

/-- Everything a command can do. -/
theorem exec_cases (i : Instr) (s : State) :
    (i = .load ∧ exec i s = .next { s with
      ctr := s.opa, key := s.opb, status := { s.status.succeeded with valid := true } }) ∨
    (i ≠ .load ∧ s.status.valid = false ∧ exec i s = .next (raise .notCreated s)) ∨
    (i = .index ∧ s.status.valid = true ∧ s.opa = 0 ∧
      exec i s = .next (raise .domainError s)) ∨
    (i ≠ .load ∧ s.status.valid = true ∧ (i = .index → s.opa ≠ 0) ∧
      ∃ t, exec i s = .next t ∧ Succeeds i s t) := by
  cases hv : s.status.valid with
  | false =>
    cases i with
    | load => exact .inl ⟨rfl, rfl⟩
    | _ =>
      refine .inr (.inl ⟨by decide, rfl, ?_⟩)
      simp only [exec, execRaw, execUnit32, execUnit64, execRangef32, execRangef64, execRangei32,
        execRangei64, execVec2f32, execVec3f32, execVec4f32, execVec2f64, execVec3f64,
        execVec4f64, vectorOp, execIndex, whenCreated_uncreated hv]
  | true =>
    cases i with
    | load => exact .inl ⟨rfl, rfl⟩
    | index =>
      by_cases h0 : s.opa = 0
      · refine .inr (.inr (.inl ⟨rfl, rfl, h0, ?_⟩))
        simp only [exec, execIndex, whenCreated_created hv, if_pos h0]
      · refine .inr (.inr (.inr ⟨by decide, rfl, fun _ => h0, ?_⟩))
        simp only [exec, execIndex, whenCreated_created hv, if_neg h0]
        exact succeeds_deliver _ rfl rfl (scaled_state s)
    | raw =>
      refine .inr (.inr (.inr ⟨by decide, rfl, by simp, ?_⟩))
      simp only [exec, execRaw, whenCreated_created hv]
      exact succeeds_deliver _ rfl rfl rfl
    | unit32 | unit64 | rangef32 | rangef64 | rangei32 | rangei64 =>
      refine .inr (.inr (.inr ⟨by decide, rfl, by simp, ?_⟩))
      simp only [exec, execUnit32, execUnit64, execRangef32, execRangef64, execRangei32,
        execRangei64, whenCreated_created hv]
      exact succeeds_deliver _ rfl rfl (drawUnit_state _ s)
    | vec2f32 | vec2f64 =>
      exact .inr (.inr (.inr ⟨by decide, rfl, by simp, (succeeds_vector hv).1 _ rfl rfl⟩))
    | vec3f32 | vec3f64 =>
      exact .inr (.inr (.inr ⟨by decide, rfl, by simp, (succeeds_vector hv).2.1 _ rfl rfl⟩))
    | vec4f32 | vec4f64 =>
      exact .inr (.inr (.inr ⟨by decide, rfl, by simp, (succeeds_vector hv).2.2 _ rfl rfl⟩))

end Sys2Proof.Machine
end

