-- ==== Sys2Proof/Laws/Float.lean ====
section
/-! SUPPORT. What the rounding of `Machine/Float.lean` does: the bounds of the nearest-integer quotient,
that a value of the format is kept, and that a rounded result never crosses a value of the format. -/

namespace Sys2Proof.Machine

/-! ## The nearest integer of a quotient -/

/-- Twice the quotient's distance from its rounding is at most the divisor. -/
theorem roundQuot_bounds (ties : RoundTies) (num den : Nat) (hd : 0 < den) :
    2 * (roundQuot ties num den * den) ≤ 2 * num + den ∧
      2 * num ≤ 2 * (roundQuot ties num den * den) + den := by
  have h := Nat.div_add_mod num den
  have hr := Nat.mod_lt num hd
  rw [Nat.mul_comm] at h
  have h1 : ∀ k, (num / den + k) * den = num / den * den + k * den := fun k => Nat.add_mul ..
  unfold roundQuot
  simp only
  split
  · omega
  · split
    · rw [h1]; omega
    · have ht : 2 * (num % den) = den := by omega
      cases ties with
      | away => simp only; rw [h1]; omega
      | even =>
        simp only
        rcases Nat.mod_two_eq_zero_or_one (num / den) with h2 | h2 <;> rw [h1, h2] <;> omega

/-- A whole quotient is kept. -/
theorem roundQuot_mul (ties : RoundTies) (k den : Nat) (hd : 0 < den) :
    roundQuot ties (k * den) den = k := by
  unfold roundQuot
  simp [Nat.mul_div_cancel _ hd, hd]

/-- Rounding to an integer keeps the order of the dividends. -/
theorem roundQuot_mono (ties : RoundTies) {num num' den : Nat} (hd : 0 < den) (h : num ≤ num') :
    roundQuot ties num den ≤ roundQuot ties num' den := by
  rcases Nat.eq_or_lt_of_le h with rfl | hlt
  · exact Nat.le_refl _
  · by_contra hc
    have h1 := (roundQuot_bounds ties num den hd).1
    have h2 := (roundQuot_bounds ties num' den hd).2
    have h3 : (roundQuot ties num' den + 1) * den ≤ roundQuot ties num den * den :=
      Nat.mul_le_mul_right _ (by omega)
    rw [Nat.add_mul] at h3
    omega

/-- The rounding of a quotient is at most every integer the quotient is at most. -/
theorem roundQuot_le (ties : RoundTies) {num k den : Nat} (hd : 0 < den) (h : num ≤ k * den) :
    roundQuot ties num den ≤ k :=
  roundQuot_mul ties k den hd ▸ roundQuot_mono ties hd h

/-- The rounding of a quotient is at least every integer the quotient is at least. -/
theorem le_roundQuot (ties : RoundTies) {num k den : Nat} (hd : 0 < den) (h : k * den ≤ num) :
    k ≤ roundQuot ties num den := by
  have := roundQuot_mono ties hd h
  rwa [roundQuot_mul ties k den hd] at this

/-! ## Rounding to a format -/

/-- The exponent (in units) at which `roundTo` keeps the significand. -/
def roundShift (F : Format) (num den : Nat) : Nat := Nat.log2 (num / den) - F.mantBits

/-- The magnitude `roundTo` gives, before the overflow check. -/
def roundMag (F : Format) (num den : Nat) : Nat :=
  roundQuot .even num (den * 2 ^ roundShift F num den) * 2 ^ roundShift F num den

theorem roundTo_eq (F : Format) (neg : Bool) (num den : Nat) :
    roundTo F neg num den =
      if roundMag F num den < 2 ^ F.overflowExp then .fin neg (roundMag F num den)
      else .inf neg := rfl

theorem mantBits_pos (F : Format) : 0 < F.mantBits := by cases F <;> decide

theorem mantBits_lt_overflowExp (F : Format) : F.mantBits + 1 < F.overflowExp := by
  cases F <;> decide

theorem unitExp_lt_overflowExp (F : Format) : F.unitExp + F.mantBits + 1 < F.overflowExp := by
  cases F <;> decide

theorem one_pos (F : Format) : 0 < F.one := Nat.two_pow_pos _

/-- Above the subnormal range the quotient fills the significand. -/
theorem roundShift_low {F : Format} {num den : Nat} (hd : 0 < den)
    (h : 0 < roundShift F num den) :
    2 ^ (F.mantBits + roundShift F num den) * den ≤ num := by
  have hne : num / den ≠ 0 := by
    intro h0; simp [roundShift, h0] at h
  have hl : 2 ^ Nat.log2 (num / den) ≤ num / den := (Nat.le_log2 hne).1 (Nat.le_refl _)
  have he : F.mantBits + roundShift F num den = Nat.log2 (num / den) := by
    unfold roundShift at *; omega
  rw [he]
  exact (Nat.le_div_iff_mul_le hd).1 hl

/-- The quotient never needs more than the significand. -/
theorem roundShift_high (F : Format) {num den : Nat} (hd : 0 < den) :
    num < 2 ^ (F.mantBits + 1 + roundShift F num den) * den := by
  have hl : num / den < 2 ^ (Nat.log2 (num / den) + 1) := Nat.lt_log2_self
  have hm : 2 ^ (Nat.log2 (num / den) + 1) ≤ 2 ^ (F.mantBits + 1 + roundShift F num den) := by
    apply Nat.pow_le_pow_right (by decide)
    unfold roundShift; omega
  exact (Nat.div_lt_iff_lt_mul hd).1 (Nat.lt_of_lt_of_le hl hm)

/-- A value with a short significand that is not below `2^(mantBits + sh)` is a multiple of `2^sh`. -/
theorem multiple_of_large {F : Format} {m k sh : Nat} (hm : m < 2 ^ (F.mantBits + 1))
    (h : 2 ^ (F.mantBits + sh) ≤ m * 2 ^ k) : ∃ r, m * 2 ^ k = r * 2 ^ sh := by
  have hk : sh ≤ k := by
    by_contra hc
    have hp : 2 ^ k * 2 ≤ 2 ^ sh := by
      rw [← Nat.pow_succ]; exact Nat.pow_le_pow_right (by decide) (by omega)
    have h1 : m * 2 ^ k < 2 ^ (F.mantBits + 1) * 2 ^ k :=
      Nat.mul_lt_mul_of_pos_right hm (Nat.two_pow_pos _)
    have h2 : 2 ^ (F.mantBits + 1) * 2 ^ k = 2 ^ F.mantBits * (2 ^ k * 2) := by
      rw [Nat.pow_succ]; ring
    have h3 : 2 ^ F.mantBits * (2 ^ k * 2) ≤ 2 ^ F.mantBits * 2 ^ sh :=
      Nat.mul_le_mul_left _ hp
    rw [Nat.pow_add] at h
    omega
  exact ⟨m * 2 ^ (k - sh), by rw [Nat.mul_assoc, ← Nat.pow_add]; congr 2; omega⟩

/-- A rounded result never exceeds a value of the format that the exact value does not exceed. -/
theorem roundMag_le {F : Format} {num den R : Nat} (hd : 0 < den)
    (hR : ∃ m k, m < 2 ^ (F.mantBits + 1) ∧ R = m * 2 ^ k) (h : num ≤ R * den) :
    roundMag F num den ≤ R := by
  obtain ⟨m, k, hm, rfl⟩ := hR
  unfold roundMag
  generalize hs : roundShift F num den = sh
  have hD : 0 < den * 2 ^ sh := Nat.mul_pos hd (Nat.two_pow_pos _)
  obtain ⟨r, hr⟩ : ∃ r, m * 2 ^ k = r * 2 ^ sh := by
    rcases Nat.eq_zero_or_pos sh with h0 | h0
    · exact ⟨m * 2 ^ k, by simp [h0]⟩
    · have hl := roundShift_low hd (hs ▸ h0)
      rw [hs] at hl
      exact multiple_of_large hm (Nat.le_of_mul_le_mul_right (Nat.le_trans hl h) hd)
  rw [hr] at h ⊢
  refine Nat.mul_le_mul_right _ (roundQuot_le _ hD ?_)
  calc num ≤ r * 2 ^ sh * den := h
    _ = r * (den * 2 ^ sh) := by ring

/-- A rounded result is never below a value of the format that the exact value is not below. -/
theorem le_roundMag {F : Format} {num den R : Nat} (hd : 0 < den)
    (hR : ∃ m k, m < 2 ^ (F.mantBits + 1) ∧ R = m * 2 ^ k) (h : R * den ≤ num) :
    R ≤ roundMag F num den := by
  obtain ⟨m, k, hm, rfl⟩ := hR
  unfold roundMag
  generalize hs : roundShift F num den = sh
  have hD : 0 < den * 2 ^ sh := Nat.mul_pos hd (Nat.two_pow_pos _)
  by_cases hbig : 2 ^ (F.mantBits + sh) ≤ m * 2 ^ k
  · obtain ⟨r, hr⟩ := multiple_of_large hm hbig
    rw [hr] at h ⊢
    refine Nat.mul_le_mul_right _ (le_roundQuot _ hD ?_)
    calc r * (den * 2 ^ sh) = r * 2 ^ sh * den := by ring
      _ ≤ num := h
  · rcases Nat.eq_zero_or_pos sh with h0 | h0
    · subst h0
      simp only [Nat.pow_zero, Nat.mul_one]
      exact le_roundQuot _ hd h
    · have hl := roundShift_low hd (hs ▸ h0)
      rw [hs] at hl
      have : 2 ^ F.mantBits ≤ roundQuot .even num (den * 2 ^ sh) := by
        refine le_roundQuot _ hD ?_
        calc 2 ^ F.mantBits * (den * 2 ^ sh) = 2 ^ (F.mantBits + sh) * den := by
              rw [Nat.pow_add]; ring
          _ ≤ num := hl
      have := Nat.mul_le_mul_right (2 ^ sh) this
      rw [← Nat.pow_add] at this
      omega

/-- A value of the format is kept. -/
theorem roundMag_exact {F : Format} {R den : Nat} (hd : 0 < den)
    (hR : ∃ m k, m < 2 ^ (F.mantBits + 1) ∧ R = m * 2 ^ k) : roundMag F (R * den) den = R :=
  Nat.le_antisymm (roundMag_le hd hR (Nat.le_refl _)) (le_roundMag hd hR (Nat.le_refl _))

theorem roundTo_exact {F : Format} {R den : Nat} (neg : Bool) (hd : 0 < den)
    (hR : F.Representable R) : roundTo F neg (R * den) den = .fin neg R := by
  rw [roundTo_eq, roundMag_exact hd hR.2, if_pos hR.1]

/-- A significand rounded up past its last bit is the next power of two, which is short again. -/
theorem roundMag_short (F : Format) {num den : Nat} (hd : 0 < den) :
    ∃ m k, m < 2 ^ (F.mantBits + 1) ∧ roundMag F num den = m * 2 ^ k := by
  have hq : roundQuot .even num (den * 2 ^ roundShift F num den) ≤ 2 ^ (F.mantBits + 1) := by
    refine roundQuot_le _ (Nat.mul_pos hd (Nat.two_pow_pos _)) ?_
    have := roundShift_high F (num := num) hd
    rw [Nat.pow_add, Nat.mul_assoc, Nat.mul_comm (2 ^ roundShift F num den)] at this
    exact Nat.le_of_lt this
  rcases Nat.lt_or_eq_of_le hq with h | h
  · exact ⟨_, _, h, rfl⟩
  · refine ⟨1, F.mantBits + 1 + roundShift F num den, ?_, ?_⟩
    · exact Nat.one_lt_two_pow (by have := mantBits_pos F; omega)
    · unfold roundMag; rw [h, ← Nat.pow_add, Nat.one_mul]

/-- Powers of two below the overflow bound are values of the format. -/
theorem representable_pow {F : Format} {n : Nat} (h : n < F.overflowExp) :
    F.Representable (2 ^ n) :=
  ⟨Nat.pow_lt_pow_right (by decide) h, 1, n,
    Nat.one_lt_two_pow (by have := mantBits_pos F; omega), by simp⟩

theorem representable_one (F : Format) : F.Representable F.one :=
  representable_pow (by have := unitExp_lt_overflowExp F; omega)

/-- Small multiples of one are values of the format. -/
theorem representable_small {F : Format} {n : Nat} (h : n ≤ 2 ^ (F.mantBits + 1)) :
    F.Representable (n * F.one) := by
  have hu := unitExp_lt_overflowExp F
  rcases Nat.lt_or_eq_of_le h with h | rfl
  · refine ⟨?_, n, F.unitExp, h, rfl⟩
    calc n * F.one < 2 ^ (F.mantBits + 1) * F.one := Nat.mul_lt_mul_of_pos_right h (one_pos F)
      _ = 2 ^ (F.mantBits + 1 + F.unitExp) := by rw [Format.one, ← Nat.pow_add]
      _ ≤ 2 ^ F.overflowExp := Nat.pow_le_pow_right (by decide) (by omega)
  · rw [Format.one, ← Nat.pow_add]
    exact representable_pow (by omega)

/-- The magnitude of a finite bit pattern is a value of the format. -/
theorem representable_ofBits {F : Format} {b mag : Nat} {neg : Bool}
    (h : FloatVal.ofBits F b = .fin neg mag) : F.Representable mag := by
  have hlt : b % 2 ^ F.mantBits < 2 ^ F.mantBits := Nat.mod_lt _ (Nat.two_pow_pos _)
  have hp : 2 ^ (F.mantBits + 1) = 2 ^ F.mantBits + 2 ^ F.mantBits := by rw [Nat.pow_succ]; omega
  unfold FloatVal.ofBits at h
  simp only at h
  split at h
  · split at h <;> cases h
  · rename_i he
    split at h
    · cases h
      refine ⟨?_, b % 2 ^ F.mantBits, 0, by omega, by simp⟩
      calc b % 2 ^ F.mantBits < 2 ^ F.mantBits := hlt
        _ ≤ 2 ^ F.overflowExp :=
          Nat.pow_le_pow_right (by decide) (by have := mantBits_lt_overflowExp F; omega)
    · rename_i h0
      cases h
      have hE : b / 2 ^ F.mantBits % 2 ^ F.expBits < 2 ^ F.expBits :=
        Nat.mod_lt _ (Nat.two_pow_pos _)
      refine ⟨?_, _, _, ?_, rfl⟩
      · calc (2 ^ F.mantBits + b % 2 ^ F.mantBits) * 2 ^ (b / 2 ^ F.mantBits % 2 ^ F.expBits - 1)
            < 2 ^ (F.mantBits + 1) * 2 ^ (b / 2 ^ F.mantBits % 2 ^ F.expBits - 1) :=
              Nat.mul_lt_mul_of_pos_right (by omega) (Nat.two_pow_pos _)
          _ = 2 ^ (F.mantBits + 1 + (b / 2 ^ F.mantBits % 2 ^ F.expBits - 1)) := by
              rw [← Nat.pow_add]
          _ ≤ 2 ^ F.overflowExp :=
              Nat.pow_le_pow_right (by decide) (by unfold Format.overflowExp; omega)
      · omega

/-! ## The rational value of units -/

theorem one_ne_zero_rat (F : Format) : (F.one : ℚ) ≠ 0 := by
  have := one_pos F
  positivity

/-- A whole count of units, as the signed count over the value 1's count. -/
theorem ratio_one (F : Format) (neg : Bool) (mag : Nat) :
    F.ratio neg mag 1 = (signedUnits neg mag : ℚ) / F.one := by
  unfold Format.ratio signedUnits
  cases neg <;> simp

theorem ratio_not (F : Format) (neg : Bool) (num den : Nat) :
    F.ratio (!neg) num den = -F.ratio neg num den := by
  cases neg <;> simp [Format.ratio] <;> ring

/-! ## What a finite operation answers -/

/-- A rounding answers a value of the format or an infinity, of the sign it was given. -/
theorem roundTo_cases (F : Format) (neg : Bool) {num den : Nat} (hd : 0 < den) :
    (roundTo F neg num den = .fin neg (roundMag F num den) ∧
      F.Representable (roundMag F num den)) ∨
    (roundTo F neg num den = .inf neg ∧ 2 ^ F.overflowExp ≤ roundMag F num den) := by
  rw [roundTo_eq]
  split
  · exact .inl ⟨rfl, by assumption, roundMag_short F hd⟩
  · exact .inr ⟨rfl, by omega⟩

/-- Below a value of the format a rounding is finite and stays below it. -/
theorem roundTo_of_le {F : Format} (neg : Bool) {num den R : Nat} (hd : 0 < den)
    (hR : F.Representable R) (h : num ≤ R * den) :
    roundTo F neg num den = .fin neg (roundMag F num den) ∧ roundMag F num den ≤ R ∧
      F.Representable (roundMag F num den) := by
  have hle := roundMag_le hd hR.2 h
  have hlt := Nat.lt_of_le_of_lt hle hR.1
  exact ⟨by rw [roundTo_eq, if_pos hlt], hle, hlt, roundMag_short F hd⟩

/-! ## Rounding keeps the order -/

theorem roundShift_mono (F : Format) {num num' den : Nat} (h : num ≤ num') :
    roundShift F num den ≤ roundShift F num' den := by
  have h1 : num / den ≤ num' / den := Nat.div_le_div_right h
  have h2 : Nat.log2 (num / den) ≤ Nat.log2 (num' / den) := by
    rcases Nat.eq_zero_or_pos (num / den) with h0 | h0
    · rw [h0]; exact Nat.zero_le _
    · exact (Nat.le_log2 (by omega)).2 (Nat.le_trans (Nat.log2_self_le (by omega)) h1)
  unfold roundShift
  omega

/-- Of two exact values the smaller is not rounded to the larger result. -/
theorem roundMag_mono (F : Format) {num num' den : Nat} (hd : 0 < den) (h : num ≤ num') :
    roundMag F num den ≤ roundMag F num' den := by
  rcases Nat.lt_or_eq_of_le (roundShift_mono F (den := den) h) with hs | hs
  · have hlow := roundShift_low hd (Nat.lt_of_le_of_lt (Nat.zero_le _) hs)
    have hhigh := roundShift_high F (num := num) hd
    have hshort : ∀ n, ∃ m k, m < 2 ^ (F.mantBits + 1) ∧ 2 ^ n = m * 2 ^ k := fun n =>
      ⟨1, n, Nat.one_lt_two_pow (by omega), by simp⟩
    calc roundMag F num den ≤ 2 ^ (F.mantBits + 1 + roundShift F num den) :=
          roundMag_le hd (hshort _) (Nat.le_of_lt hhigh)
      _ ≤ 2 ^ (F.mantBits + roundShift F num' den) :=
          Nat.pow_le_pow_right (by decide) (by omega)
      _ ≤ roundMag F num' den := le_roundMag hd (hshort _) hlow
  · unfold roundMag
    rw [hs]
    exact Nat.mul_le_mul_right _
      (roundQuot_mono _ (Nat.mul_pos hd (Nat.two_pow_pos _)) h)

/-- The signed form: of two exact integers of units, given with a sign each, the smaller is not rounded
to the larger result. -/
theorem roundTo_le_roundTo (F : Format) {x y : Int} {s t : Bool} (h : x ≤ y)
    (hs : s = true → x ≤ 0) (hs' : s = false → 0 ≤ x)
    (ht : t = true → y ≤ 0) (ht' : t = false → 0 ≤ y) :
    FloatVal.le (roundTo F s x.natAbs 1) (roundTo F t y.natAbs 1) = true := by
  rw [roundTo_eq, roundTo_eq]
  have z : roundMag F 0 1 = 0 := by
    have := roundMag_exact (F := F) (R := 0) (den := 1) (by decide)
      ⟨0, 0, Nat.two_pow_pos _, by simp⟩
    simpa using this
  cases s <;> cases t
  · have hm := roundMag_mono F (den := 1) (by decide) (show x.natAbs ≤ y.natAbs by
      have := hs' rfl; omega)
    split <;> split <;> simp [FloatVal.le, signedUnits] <;> omega
  · have hx : x = 0 := by have := hs' rfl; have := ht rfl; omega
    have hy : y = 0 := by have := hs' rfl; have := ht rfl; omega
    subst hx hy
    simp [z, FloatVal.le, signedUnits]
  · split <;> split <;> simp [FloatVal.le, signedUnits]
  · have hm := roundMag_mono F (den := 1) (by decide) (show y.natAbs ≤ x.natAbs by
      have := hs rfl; have := ht rfl; omega)
    split <;> split <;> simp [FloatVal.le, signedUnits] <;> omega

theorem addF_fin_def (F : Format) (s t : Bool) (m n : Nat) :
    addF F (.fin s m) (.fin t n) =
      if s = t then roundTo F s (m + n) 1
      else if n < m then roundTo F s (m - n) 1
      else if m < n then roundTo F t (n - m) 1
      else .fin false 0 := by simp only [addF]

/-- A finite sum is the exact signed sum of units, rounded once, under a sign that fits it. -/
theorem addF_fin (F : Format) (s t : Bool) (m n : Nat) :
    ∃ neg, addF F (.fin s m) (.fin t n) =
        roundTo F neg (signedUnits s m + signedUnits t n).natAbs 1 ∧
      (neg = true → signedUnits s m + signedUnits t n ≤ 0) ∧
      (neg = false → 0 ≤ signedUnits s m + signedUnits t n) := by
  have z : roundTo F false 0 1 = .fin false 0 := by
    have := roundTo_exact (F := F) (R := 0) (den := 1) false (by decide)
      ⟨Nat.two_pow_pos _, 0, 0, Nat.two_pow_pos _, by simp⟩
    simpa using this
  rw [addF_fin_def]
  by_cases hst : s = t
  · subst hst
    refine ⟨s, ?_, ?_, ?_⟩
    · rw [if_pos rfl]
      congr 1
      cases s <;> simp [signedUnits] <;> omega
    all_goals cases s <;> simp [signedUnits] <;> omega
  · rw [if_neg hst]
    by_cases h1 : n < m
    · rw [if_pos h1]
      refine ⟨s, ?_, ?_, ?_⟩
      · congr 1
        cases s <;> cases t <;> first | exact absurd rfl hst | (simp [signedUnits]; omega)
      all_goals
        cases s <;> cases t <;> first | exact absurd rfl hst | (simp [signedUnits] <;> omega)
    · rw [if_neg h1]
      by_cases h2 : m < n
      · rw [if_pos h2]
        refine ⟨t, ?_, ?_, ?_⟩
        · congr 1
          cases s <;> cases t <;> first | exact absurd rfl hst | (simp [signedUnits]; omega)
        all_goals
          cases s <;> cases t <;> first | exact absurd rfl hst | (simp [signedUnits] <;> omega)
      · rw [if_neg h2]
        have hmn : m = n := by omega
        subst hmn
        have h0 : signedUnits s m + signedUnits t m = 0 := by
          cases s <;> cases t <;> first | exact absurd rfl hst | (simp [signedUnits])
        rw [h0]
        exact ⟨false, by simp [z], by simp, by simp⟩

end Sys2Proof.Machine
end

