-- ==== Sys2Proof/Laws/PerInstr.lean ====
section
/-! SUPPORT. Per command: its own word decodes to it, is a legal word, and its bytes decode back. -/

namespace Sys2Proof.Laws.Encoding

/-- The command's word is legal (R81) and decodes to the command, on the word and on its bytes (R55). -/
def Statement (i : Instr) : Prop :=
  wordWellFormed (encode i) = true ∧ decode (encode i) = .ok i ∧
    ∀ rest, decodeBytes (encodeBytes i ++ rest) = .ok (i, rest)

theorem load : Statement .load := ⟨by decide, by rfl, fun _ => by rfl⟩
theorem raw : Statement .raw := ⟨by decide, by rfl, fun _ => by rfl⟩
theorem unit32 : Statement .unit32 := ⟨by decide, by rfl, fun _ => by rfl⟩
theorem unit64 : Statement .unit64 := ⟨by decide, by rfl, fun _ => by rfl⟩
theorem rangef32 : Statement .rangef32 := ⟨by decide, by rfl, fun _ => by rfl⟩
theorem rangef64 : Statement .rangef64 := ⟨by decide, by rfl, fun _ => by rfl⟩
theorem rangei32 : Statement .rangei32 := ⟨by decide, by rfl, fun _ => by rfl⟩
theorem rangei64 : Statement .rangei64 := ⟨by decide, by rfl, fun _ => by rfl⟩
theorem vec2f32 : Statement .vec2f32 := ⟨by decide, by rfl, fun _ => by rfl⟩
theorem vec3f32 : Statement .vec3f32 := ⟨by decide, by rfl, fun _ => by rfl⟩
theorem vec4f32 : Statement .vec4f32 := ⟨by decide, by rfl, fun _ => by rfl⟩
theorem vec2f64 : Statement .vec2f64 := ⟨by decide, by rfl, fun _ => by rfl⟩
theorem vec3f64 : Statement .vec3f64 := ⟨by decide, by rfl, fun _ => by rfl⟩
theorem vec4f64 : Statement .vec4f64 := ⟨by decide, by rfl, fun _ => by rfl⟩
theorem index : Statement .index := ⟨by decide, by rfl, fun _ => by rfl⟩

end Sys2Proof.Laws.Encoding
end

