-- ==== Sys2Proof/Tests/Slice0.lean ====
section
/-! SUPPORT. The model's own tests. Every expected value is the spec's: the words of spec/30_encoding.md
R83, the vectors of spec/95_test_vectors.md, or a count by hand named in the comment. The second half is,
for each obligation with hypotheses, a state and operands that meet all of them together. -/

namespace Sys2Proof.Tests

open Sys2Proof Sys2Proof.Machine

/- Magnitudes of binary32 values, counted in units of 2^-149, go up to 2^277. -/
set_option exponentiation.threshold 300

/-! ## Helpers -/

/-- The test key of the source, `K`, and the all-ones word, `M`. -/
def K : Word := 0x2467cb532b5ce8d1
def M : Word := 0xFFFFFFFFFFFFFFFF

/-- The block right after `LOAD(c, k)` with the operands `a`, `b` written. -/
def created (c k a b : Word) : State :=
  { State.reset with
    ctr := c
    key := k
    opa := a
    opb := b
    status := { valid := true, sticky := false, err := none } }

/-- The state a result goes on in; the reset state where it stops. -/
def after : Result → State
  | .next t => t
  | .fault _ => State.reset
  | .refused _ => State.reset

/-- The result is a next state. -/
def runs : Result → Bool
  | .next _ => true
  | .fault _ => false
  | .refused _ => false

/-- The result is the named fault. -/
def stops (f : Fault) : Result → Bool
  | .next _ => false
  | .fault g => f == g
  | .refused _ => false

/-- One step with one access arriving at an idle block. -/
def oneAccess (s : State) (off bytes : Nat) (kind : AccessKind) : Result :=
  step { s with
    inputs := [{ reset := false, access := some ⟨s.params.base + off, bytes, kind⟩ }] }

/-- `STATUS`, `CTR` and `R0` after a command. -/
def outcome (i : Instr) (s : State) : Word × Word × Word :=
  let t := after (exec i s)
  (statusWord t.status, t.ctr, t.r0)

/-- The four result registers after a command. -/
def results (i : Instr) (s : State) : Word × Word × Word × Word :=
  let t := after (exec i s)
  (t.r0, t.r1, t.r2, t.r3)

/-! ## Decoding: words written out from R80 and R83, `MBZ` (56 bits) then `OPC` (8 bits) -/

theorem test_decode_generator :
    decode ((0 : BitVec 56) ++ 0b00000001#8) = .ok .load ∧
    decode ((0 : BitVec 56) ++ 0b00000010#8) = .ok .raw := by decide

theorem test_decode_unit :
    decode ((0 : BitVec 56) ++ 0b00000011#8) = .ok .unit32 ∧
    decode ((0 : BitVec 56) ++ 0b00000100#8) = .ok .unit64 := by decide

theorem test_decode_range :
    decode ((0 : BitVec 56) ++ 0b00000101#8) = .ok .rangef32 ∧
    decode ((0 : BitVec 56) ++ 0b00000110#8) = .ok .rangef64 ∧
    decode ((0 : BitVec 56) ++ 0b00000111#8) = .ok .rangei32 ∧
    decode ((0 : BitVec 56) ++ 0b00001000#8) = .ok .rangei64 := by decide

theorem test_decode_vector :
    decode ((0 : BitVec 56) ++ 0b00001001#8) = .ok .vec2f32 ∧
    decode ((0 : BitVec 56) ++ 0b00001010#8) = .ok .vec3f32 ∧
    decode ((0 : BitVec 56) ++ 0b00001011#8) = .ok .vec4f32 ∧
    decode ((0 : BitVec 56) ++ 0b00001100#8) = .ok .vec2f64 ∧
    decode ((0 : BitVec 56) ++ 0b00001101#8) = .ok .vec3f64 ∧
    decode ((0 : BitVec 56) ++ 0b00001110#8) = .ok .vec4f64 := by decide

theorem test_decode_index : decode ((0 : BitVec 56) ++ 0b00001111#8) = .ok .index := by decide

/-- The byte at the lowest address holds bits 7:0 (R55). -/
theorem test_decode_bytes :
    decodeBytes [0x0B, 0, 0, 0, 0, 0, 0, 0, 0x55] = .ok (.vec4f32, [0x55]) ∧
    decodeBytes [0, 0, 0, 0, 0, 0, 0, 0x0B] = .error .mbzNonZero ∧
    decodeBytes [0x0B, 0, 0] = .error .shortWord := by decide

theorem test_decode_table_word :
    decodeTableWord 64 0x0F = some .index ∧ decodeTableWord 64 0x10F = none ∧
    decodeTableWord 8 0x02 = some .raw := by decide

/-! ## Ill-formed terms, one for each check (R52, R53, R51, R80, R81, R90) -/

theorem test_illformed_word_mbz :
    wordWellFormed 0x8000000000000001 = false ∧ decode 0x8000000000000001 = .error .mbzNonZero ∧
    wordWellFormed 0x100 = false ∧ decode 0x100 = .error .mbzNonZero := by decide

theorem test_illformed_word_opcode :
    wordWellFormed 0 = false ∧ decode 0 = .error .reservedOpcode ∧
    wordWellFormed 0x10 = false ∧ decode 0x10 = .error .reservedOpcode ∧
    wordWellFormed 0xFF = false ∧ decode 0xFF = .error .reservedOpcode := by decide

theorem test_illformed_access_width :
    Access.wellFormed 0x80 ⟨0x80 + 0x28, 4, .read⟩ = false ∧
    Access.wellFormed 0x80 ⟨0x80 + 0x28, 16, .read⟩ = false ∧
    Access.wellFormed 0x80 ⟨0x80 + 0x28, 8, .read⟩ = true := by decide

theorem test_illformed_access_aligned :
    Access.wellFormed 0x80 ⟨0x80 + 0x1C, 8, .write 0⟩ = false := by decide

theorem test_illformed_access_reserved :
    Access.wellFormed 0x80 ⟨0x80 + 0x58, 8, .read⟩ = false ∧
    Access.wellFormed 0x80 ⟨0x80 + 0x50, 8, .read⟩ = true := by decide

theorem test_illformed_access_window :
    Access.wellFormed 0x80 ⟨0x78, 8, .read⟩ = false ∧
    Access.wellFormed 0x80 ⟨0x100, 8, .read⟩ = false := by decide

theorem test_illformed_rangei32 :
    HostStmt.wellFormed (.pseudo (.rangei32 0 2147483648)) = false ∧
    HostStmt.wellFormed (.pseudo (.rangei32 (-2147483648) 2147483647)) = true := by
  decide

/-! ## The mixing engine and the reduction (§2.1, §2.3) -/

theorem test_squares :
    squares 0 K = 0x87053a45 ∧ squares M K = 0x67c23e9c ∧ squares 0x100000000 K = 0x16463f1e ∧
    squares 0x123456789abcdef0 0xfedcba9876543210 = 0xdb487402 ∧ squares 0 M = 0xffffffff := by
  decide

theorem test_reduce :
    reduceDraw 0xffffffff = 0 ∧ reduceDraw 0xfffffffe = 4294967294 ∧
    reduceDraw 0x87053a45 = 2265266757 := by decide

/-! ## Unit values (§2.3) and components (§2.6) -/

theorem test_unit_values :
    resultF32 (unitOf .f32 1) = 0x2f800000 ∧ resultF32 (unitOf .f32 16777217) = 0x3b800000 ∧
    resultF32 (unitOf .f32 16777219) = 0x3b800002 ∧
    resultF64 (unitOf .f64 3) = 0x3e08000000180000 ∧
    resultF64 (unitOf .f64 4294967294) = 0x3fefffffffe00000 := by decide +kernel

theorem test_components :
    resultF32 (compOf .f32 64) = 0xbf800000 ∧ resultF32 (compOf .f32 65) = 0xbf7fffff ∧
    resultF64 (compOf .f64 2147483647) = 0xbdf0000000000000 ∧
    resultF64 (compOf .f64 2147483648) = 0x3df0000000000000 := by decide +kernel

/-! ## The remap and the round-to-integer step (§2.4, §2.5) -/

theorem test_range_corners :
    resultF32 (rangeOf .f32 (operandF32 0x80000000) (operandF32 0x80000000) (unitOf .f32 7)) = 0 ∧
    resultF32 (rangeOf .f32 (operandF32 0xff7fffff) (operandF32 0x7f7fffff) (.fin false 0)) =
      0x7fc00000 ∧
    resultF32 (rangeOf .f32 (operandF32 0xff800000) (operandF32 0x7f800000) (.fin false 0)) =
      0x7fc00000 ∧
    resultF64 (rangeOf .f64 (operandF64 0x4014000000000000) (operandF64 0x4000000000000000)
      (operandF64 0x3fe0000000100000)) = 0x400bfffffff40000 := by decide +kernel

theorem test_rint :
    rint .f32 .even (operandF32 0x3f000000) = 0 ∧ rint .f32 .away (operandF32 0x3f000000) = 1 ∧
    rint .f32 .even (operandF32 0x40200000) = 2 ∧ rint .f32 .away (operandF32 0x40200000) = 3 ∧
    rint .f32 .even (operandF32 0xc0200000) = -2 ∧
    rint .f32 .away (operandF32 0xc0200000) = -3 := by decide

/-! ## Every command (§2.2 to §2.7), at most two tests each -/

theorem test_load :
    after (exec .load { State.reset with opb := K }) =
      { State.reset with
        key := K, opb := K, status := { valid := true, sticky := false, err := none } } := by decide

theorem test_load_keeps_sticky :
    let s := { created 5 K M 0 with status := { valid := true, sticky := true, err := none } }
    outcome .load s = (0x5, M, 0) ∧ (after (exec .load s)).key = 0 := by decide

theorem test_raw : outcome .raw (created 0 K 0 0) = (0x1, 1, 0x87053a45) := by decide

theorem test_raw_wraps : outcome .raw (created M K 0 0) = (0x1, 0, 0x67c23e9c) := by decide

theorem test_unit32 : outcome .unit32 (created 0 K 0 0) = (0x1, 1, 0x3f07053a) := by decide

theorem test_unit32_one :
    outcome .unit32 (created 2 M 0 0) = (0x1, 3, 0x3f800000) := by decide

theorem test_unit64 :
    outcome .unit64 (created 0 K 0 0) = (0x1, 1, 0x3fe0e0a748b0e0a7) := by decide +kernel

theorem test_unit64_top :
    outcome .unit64 (created 9 M 0 0) = (0x1, 10, 0x3fefffffde200000) := by decide +kernel

theorem test_rangef32_ignores_upper :
    outcome .rangef32 (created 0 K 0xdeadbeef00000000 0x1234567841200000) =
      (0x1, 1, 0x40a8c688) := by decide

theorem test_rangef32_malformed :
    outcome .rangef32 (created 0 K 0x40a00000 0x40000000) = (0x1, 1, 0x405abc14) := by
  decide

theorem test_rangef64 :
    outcome .rangef64 (created 0 K 0 0x4024000000000000) = (0x1, 1, 0x401518d11add18d1) := by
  decide +kernel

theorem test_rangef64_signed :
    outcome .rangef64 (created 0 K 0xbff0000000000000 0x3ff0000000000000) =
      (0x1, 1, 0x3fac14e9161c14e0) := by decide +kernel

theorem test_rangei32_negative :
    outcome .rangei32 (created 0 K 0xffffffffffffff9c 0xffffffffffffffce) =
      (0x1, 1, 0xffffffffffffffb6) := by decide

theorem test_rangei32_above_max :
    outcome .rangei32 (created 2 M 0xffffffffff000000 0xffffff) = (0x1, 3, 0x1000000) := by
  decide

theorem test_rangei64_wide_bound :
    outcome .rangei64 (created 0 K 0xfffffffb 0x5) = (0x1, 1, 0x78fac5bb) := by decide +kernel

theorem test_rangei64_extremes :
    outcome .rangei64 (created 2 M 0x8000000000000000 0x7fffffffffffffff) =
      (0x1, 3, 0x7ffffffb00000000) := by decide +kernel

theorem test_vec2f32 :
    results .vec2f32 { created 0 K 0 0 with r2 := 7, r3 := 8 } =
      (0x3d60a740, 0x3f5ad006, 7, 8) := by decide

theorem test_vec3f32 :
    results .vec3f32 { created 0 K 0 0 with r3 := 8 } =
      (0x3d60a740, 0x3f5ad006, 0x3f72cf88, 8) := by decide

theorem test_vec4f32_wraps :
    results .vec4f32 (created 0xFFFFFFFFFFFFFFFE K 0 0) =
      (0x3f406ee4, 0xbe41ee0c, 0x3d60a740, 0x3f5ad006) ∧
    (after (exec .vec4f32 (created 0xFFFFFFFFFFFFFFFE K 0 0))).ctr = 2 := by decide

theorem test_vec2f64 :
    results .vec2f64 { created 0 K 0 0 with r2 := 7, r3 := 8 } =
      (0x3fac14e9161c14e0, 0x3feb5a00ae7b5a00, 7, 8) := by decide +kernel

theorem test_vec3f64 :
    results .vec3f64 { created 0 K 0 0 with r3 := 8 } =
      (0x3fac14e9161c14e0, 0x3feb5a00ae7b5a00, 0x3fee59f113fe59f2, 8) := by decide +kernel

theorem test_vec4f64 :
    results .vec4f64 (created 0 K 0 0) =
      (0x3fac14e9161c14e0, 0x3feb5a00ae7b5a00, 0x3fee59f113fe59f2, 0xbfdc47eec55c47ee) := by
  decide +kernel

theorem test_index :
    outcome .index (created 0 K 10 0) = (0x1, 1, 7) ∧
    outcome .index (created 0 K 0x100000000 0) = (0x1, 1, 0x87053a45) := by decide

theorem test_index_zero : outcome .index (created 0 K 0 0) = (0x15, 0, 0) := by decide

/-- The draw at counter 4 under `K` is 0x28911cea (§2.1); its F32 unit value times 2^23 is 1329294.5, a tie
that `EVEN` takes down and `AWAY` up. -/
theorem test_round_ties_parameter :
    let s := created 4 K 0 0x800000
    outcome .rangei32 s = (0x1, 5, 1329294) ∧
    outcome .rangei32 { s with params := { s.params with roundTies := .away } } =
      (0x1, 5, 1329295) := by decide +kernel

/-! ## Errors (§2.8) -/

theorem test_not_created :
    outcome .raw State.reset = (0x44, 0, 0) ∧ outcome .index State.reset = (0x44, 0, 0) ∧
    outcome .vec4f64 State.reset = (0x44, 0, 0) := by decide

theorem test_illegal_words :
    [(0 : Word), 0x10, 0xFF, 0x100, 0x0100000000000002, 0x8000000000000001].all (fun w =>
      statusWord (after (runCommand w State.reset)).status == 0x34) = true ∧
    statusWord (after (runCommand 0x102 (created 0 K 0 0))).status = 0x35 ∧
    (after (runCommand 0x102 (created 0 K 0 0))).cmd = 0x102 := by decide

/-- R223 after `IllegalCommand`: `ERR` is 0 again and `STICKY` stays (notes/assumptions/17.md). -/
theorem test_success_keeps_sticky :
    let s := { created 0 K 0 0 with status := { valid := true, sticky := true,
                                                err := some .illegalCommand } }
    outcome .raw s = (0x5, 1, 0x87053a45) := by decide

/-! ## The bus (§2.8, R28 to R30, R54 to R60, R250) -/

theorem test_bus_errors :
    stops .busError (oneAccess State.reset 0x58 8 .read) = true ∧
    stops .busError (oneAccess State.reset 0x78 8 (.write 1)) = true ∧
    stops .busError (oneAccess State.reset 0x28 4 .read) = true ∧
    stops .busError (oneAccess State.reset 0x1C 8 (.write 1)) = true ∧
    stops .outsideWindow (oneAccess State.reset 0x80 8 .read) = true := by decide

theorem test_read_only_registers :
    (after (oneAccess (created 3 K 0 0) 0x28 8 (.write 5))).ctr = 3 ∧
    (after (oneAccess (created 3 K 0 0) 0x28 8 (.write 5))).response = some .writeDone ∧
    (after (oneAccess State.reset 0x00 8 .read)).response =
      some (.readData 0x5351525300070001) := by decide

theorem test_status_write_clears_sticky :
    let s := { created 0 K 0 0 with status := { valid := true, sticky := true,
                                                err := some .domainError } }
    statusWord (after (oneAccess s 0x08 8 (.write 4))).status = 0x11 ∧
    statusWord (after (oneAccess s 0x08 8 (.write 0xFFFFFFFFFFFFFFFB))).status = 0x15 := by decide

theorem test_command_write :
    (after (oneAccess (created 0 K 0 0) 0x10 8 (.write 2))).r0 = 0x87053a45 ∧
    (after (oneAccess (created 0 K 0 0) 0x10 8 (.write 2))).cmd = 2 ∧
    (after (oneAccess (created 0 K 0 0) 0x10 8 (.write 2))).response = some .writeDone := by decide

/-- With a latency of three steps for `RAW` (entry 2), two more steps hold the accesses. -/
theorem test_command_holds_the_bus :
    let s := { created 0 K 0 0 with
      params := { State.reset.params with extraCycles := [0, 0, 2] } }
    (after (oneAccess s 0x10 8 (.write 2))).executing = 2 ∧
    (after (oneAccess s 0x10 8 (.write 2))).response = none := by decide

theorem test_reset_input :
    let s := { created 3 K 1 2 with inputs := [{ reset := true, access := none }], executing := 5 }
    runs (step s) = true ∧ readReg (after (step s)) .ctr = 0 ∧ (after (step s)).executing = 0 ∧
    readReg (after (step s)) .status = 0 := by decide

theorem test_fetch_word_runs_first :
    (after (step (State.reset.withFetchWord 64 0x02))).cmd = 2 ∧
    statusWord (after (step (State.reset.withFetchWord 64 0x02))).status = 0x44 ∧
    statusWord (after (step (State.reset.withFetchWord 64 0x01))).status = 0x1 := by decide

/-! ## Host programs (R89, R90; §3) -/

theorem test_parse_line :
    parseLine "wr OPA, -16777216".toList = some (.line (.wr .opa (.num (-16777216)))) ∧
    parseLine "CMD Index   -- OPA still 0".toList = some (.line (.cmd .index)) ∧
    parseLine "load 0, 0xFF".toList = some (.pseudo (.load (.num 0) (.num 255))) ∧
    parseLine "rd R4".toList = none ∧ parseLine "rangei32 0, 2147483648".toList = none ∧
    parseLine "rangei32 0x10, 0x20".toList = none ∧
    parseLine "rangei32 -2147483648, 2147483647".toList =
      some (.pseudo (.rangei32 (-2147483648) 2147483647)) := by
  decide

/-- 10.0, 2.5 and 0.1 in binary32 are 0x41200000, 0x40200000 and 0x3dcccccd. -/
theorem test_float_literals :
    parseLine "rangef32 0, 2.5e0".toList =
      some (.pseudo (.rangef32 ⟨false, 0, 0⟩ ⟨false, 25, -1⟩)) ∧
    valueWord (.f32 ⟨false, 1, 1⟩) = 0x41200000 ∧ valueWord (.f32 ⟨false, 25, -1⟩) = 0x40200000 ∧
    valueWord (.f32 ⟨false, 1, -1⟩) = 0x3dcccccd := by decide

/-! ## Witnesses: for each obligation with hypotheses, a case that meets all of them -/

theorem witness_CounterProgression :
    (created M K 0 0).status.valid = true ∧ 0 < 3 := by decide

/-- For every result statement: a created block, a block that is not, and for `INDEX` both sizes. -/
theorem witness_results :
    (created 0 K 0 0).status.valid = true ∧ State.reset.status.valid = false ∧
    (created 0 K 1 0).status.valid = true ∧ (created 0 K 1 0).opa ≠ 0 ∧
    (created 0 K 0 0).opa = 0 := by decide

theorem witness_NotCreatedBeforeLoad :
    Instr.index ≠ .load ∧ State.reset.status.valid = false := by decide

theorem witness_CommandErrorsArePrecise :
    (∃ t, runCommand 0x100 (created 0 K 0 0) = .next t ∧
      t.status.err = some .illegalCommand) ∧
    (∃ t, runCommand 0x0F (created 0 K 0 0) = .next t ∧ t.status.err = some .domainError) ∧
    (∃ t, runCommand 0x02 State.reset = .next t ∧ t.status.err = some .notCreated) :=
  ⟨⟨_, rfl, rfl⟩, ⟨_, rfl, rfl⟩, ⟨_, rfl, rfl⟩⟩

theorem witness_SuccessKeepsSticky :
    (Instr.load = .load ∧ State.reset.status.valid = false) ∧
    (∀ i ∈ allInstrs, (created 0 K 1 0).status.valid = true ∧
      (i = .index → (created 0 K 1 0).opa ≠ 0)) := by decide

theorem witness_DecoderAcceptsExactlyLegalWords :
    decode 0x0F = .ok .index ∧ wordWellFormed 0x10 = false := by decide

theorem witness_CounterAdvancesByDraws :
    (∃ t, exec .vec3f32 (created M K 0 0) = .next t ∧ t.status.err = none) ∧
    Instr.vec3f32 ≠ .load := ⟨⟨_, rfl, rfl⟩, by decide⟩

theorem witness_CommandFrame :
    (∃ t, exec .load State.reset = .next t) ∧ Instr.load.results < 1 ∧
    (∃ t, exec .raw State.reset = .next t) ∧ Instr.raw ≠ .load ∧ Instr.raw.results < 2 ∧
    Instr.vec2f32.results < 3 ∧ Instr.vec3f64.results < 4 :=
  ⟨⟨_, rfl⟩, by decide, ⟨_, rfl⟩, by decide, by decide, by decide, by decide⟩

theorem witness_IllegalWordRaises :
    (0x100 : Word).extractLsb' 8 56 ≠ 0 ∧ (0x8000000000000002 : Word).extractLsb' 8 56 ≠ 0 ∧
    (0x00 : Word).extractLsb' 0 8 = 0 ∧ 0x10 ≤ ((0x10 : Word).extractLsb' 0 8).toNat ∧
    0x10 ≤ ((0xFF : Word).extractLsb' 0 8).toNat := by decide

theorem witness_ErrorPriority :
    wordWellFormed 0x10 = false ∧
    (wordWellFormed 0x02 = true ∧ (0x02 : Word) ≠ 0x01 ∧ State.reset.status.valid = false) ∧
    (wordWellFormed 0x0F = true ∧ (created 0 K 0 0).status.valid = true ∧
      (created 0 K 0 0).opa = 0) ∧
    (wordWellFormed 0x01 = true ∧ (0x01 : Word) ≠ 0x0F) := by decide

theorem witness_EqualGeneratorsStayEqual :
    let s := created 0 K 1 2
    let s' := { created 0 K 1 2 with r0 := 9, cmd := 3, executing := 4 }
    s.ctr = s'.ctr ∧ s.key = s'.key ∧ s.opa = s'.opa ∧ s.opb = s'.opb ∧ s.status = s'.status ∧
    s ≠ s' ∧ s.params.roundTies = s'.params.roundTies := by decide

/-- The other tie rule, and commands that do not round to an integer. -/
def otherTies : State :=
  { created 0 K 1 2 with params := { State.reset.params with roundTies := .away } }

theorem witness_EqualGeneratorsStayEqual_ties :
    let s := created 0 K 1 2
    let cs := [Instr.load, .rangef32, .vec4f64]
    s.ctr = otherTies.ctr ∧ s.key = otherTies.key ∧ s.opa = otherTies.opa ∧
    s.opb = otherTies.opb ∧ s.status = otherTies.status ∧
    s.params.roundTies ≠ otherTies.params.roundTies ∧ .rangei32 ∉ cs ∧ .rangei64 ∉ cs := by decide

theorem witness_StateTransplantResumes :
    (created 7 K 0 0).status.valid = true ∧
    (created 7 K 0 0).params.roundTies = State.reset.params.roundTies ∧
    Instr.rangei32 ∉ [Instr.raw] ∧ Instr.rangei64 ∉ [Instr.raw] := by decide

/-- The bounds of every statement over scaled values: its ends and the thresholds of the F32 value. -/
theorem witness_scaled_values :
    [(0 : Word), 1, 64, 65, 4294967167, 4294967168, 4294967294].all
      (fun s => s.toNat ≤ 4294967294) = true := by
  decide

theorem witness_ReductionChangesOneRawDraw :
    squares 0 M = 0xFFFFFFFF ∧ squares 0 K ≠ 0xFFFFFFFF := by decide

/-- A tie between two values of the format, the largest finite quotient's neighbour, an overflow. -/
theorem witness_RoundingIsNearestEven :
    0 < 2 ∧ roundTo .f32 false 3 2 = .fin false 2 ∧ roundTo .f32 true 5 2 = .fin true 2 ∧
    Format.Representable .f32 3 ∧ roundTo .f32 false (2 ^ 277) 1 = .inf false :=
  ⟨by decide, by decide, by decide,
    ⟨by decide, 3, 0, by decide, by decide⟩, by decide⟩

/-- Finite patterns: a subnormal, 1.0 and the largest value of either format; a nonzero divisor. -/
theorem witness_FloatOperationsRoundOnce :
    operandF32 0x80000001 = .fin true 1 ∧ operandF32 0x3f800000 = .fin false (2 ^ 149) ∧
    (operandF32 0x7f7fffff).isFinite = true ∧ operandF64 1 = .fin false 1 ∧
    (operandF64 0x7fefffffffffffff).isFinite = true ∧ 1 ≠ 0 := by decide +kernel

/-- NaN patterns of either sign with the least and the greatest payload, and the infinities. -/
theorem witness_NanRangesAreCanonical :
    operandF32 0x7f800001 = .nan ∧ operandF32 0xffffffff = .nan ∧
    operandF32 0xff800000 = .inf true ∧ operandF64 0x7ff0000000000001 = .nan ∧
    operandF64 0xffffffffffffffff = .nan ∧ operandF64 0x7ff0000000000000 = .inf false := by decide

theorem witness_EqualBoundsGiveTheBound :
    (∃ neg mag, operandF .f32 0x80000000 = .fin neg mag) ∧
    ∃ neg mag, operandF .f64 0x3ff0000000000000 = .fin neg mag :=
  ⟨⟨true, 0, by decide +kernel⟩, ⟨false, 2 ^ 1074, by decide +kernel⟩⟩

/-- Ranges whose bounds and difference are finite and in order. -/
def okRange (F : Format) (a b : Word) : Bool :=
  (operandF F a).isFinite && (operandF F b).isFinite && FloatVal.le (operandF F a) (operandF F b) &&
    (subF F (operandF F b) (operandF F a)).isFinite

/-- From 0 to 10, from -1 to 1 and from 0 to 0, in either format. -/
theorem witness_FloatRangeContainment :
    okRange .f32 0 0x41200000 = true ∧ okRange .f32 0xbf800000 0x3f800000 = true ∧
    okRange .f32 0 0 = true ∧ okRange .f64 0 0x4024000000000000 = true ∧
    okRange .f64 0xbff0000000000000 0x3ff0000000000000 = true := by decide +kernel

theorem witness_IntegerRangeContainment :
    let a : Int := -2 ^ 23
    let b : Int := 2 ^ 23
    let c : Int := -2 ^ 52
    let d : Int := 2 ^ 52
    (a ≤ b ∧ a.natAbs ≤ 2 ^ 24 ∧ b.natAbs ≤ 2 ^ 24 ∧ b - a ≤ 2 ^ 24) ∧
    (c ≤ d ∧ c.natAbs ≤ 2 ^ 53 ∧ d.natAbs ≤ 2 ^ 53 ∧ d - c ≤ 2 ^ 53) := by decide

/-- 0.5 and -1.5 lie exactly halfway (R152). -/
theorem witness_RintIsNearestInteger :
    (2 * (rint .f32 .even (.fin false (2 ^ 148)) * (Format.one .f32 : Int)
      - signedUnits false (2 ^ 148))).natAbs = Format.one .f32 ∧
    (2 * (rint .f32 .away (.fin true (3 * 2 ^ 148)) * (Format.one .f32 : Int)
      - signedUnits true (3 * 2 ^ 148))).natAbs = Format.one .f32 := by decide

theorem witness_NarrowingSaturates :
    (∀ n ∈ [(-2 ^ 31 : Int), 0, 2 ^ 31 - 1], -2 ^ 31 ≤ n ∧ n ≤ 2 ^ 31 - 1) ∧
    (2 ^ 31 - 1 : Int) < 2 ^ 31 ∧ (-2 ^ 31 - 1 : Int) < -2 ^ 31 ∧
    (∀ n ∈ [(-2 ^ 63 : Int), 0, 2 ^ 63 - 1], -2 ^ 63 ≤ n ∧ n ≤ 2 ^ 63 - 1) ∧
    (2 ^ 63 - 1 : Int) < 2 ^ 63 ∧ (-2 ^ 63 - 1 : Int) < -2 ^ 63 := by decide

theorem witness_SmallBoundsWidenExactly :
    (∀ n ∈ [(-2 ^ 24 : Int), 0, 2 ^ 24], n.natAbs ≤ 2 ^ 24) ∧
    ∀ n ∈ [(-2 ^ 53 : Int), 0, 2 ^ 53], n.natAbs ≤ 2 ^ 53 := by decide

theorem witness_IndexWithinSize :
    (∃ t, exec .index (created 0 K 10 0) = .next t ∧ t.status.err = none) ∧
    (∃ t, exec .index (created 0 K 0xFFFFFFFF 0) = .next t ∧ t.status.err = none) ∧
    2 ^ 32 - 1 ≤ (created 0 K 0xFFFFFFFF 0).opa.toNat :=
  ⟨⟨_, rfl, rfl⟩, ⟨_, rfl, rfl⟩, by decide⟩

theorem witness_WindowIsLittleEndian :
    0 < 8 ∧ 7 < 8 ∧ (∀ off ∈ [0x58, 0x7F], 0x58 ≤ off ∧ off < 0x80) := by decide

theorem witness_SelectionMatchesTheMap :
    Access.wellFormed 0x80 ⟨0x80 + 0x50, 8, .read⟩ = true ∧
    (∀ a ∈ [(⟨0x80 + 0x7F, 1, .read⟩ : Access), ⟨0x80, 4, .read⟩, ⟨0x81, 8, .read⟩],
      a.inWindow 0x80 = true ∧ a.wellFormed 0x80 = false) := by decide

/-- An idle block at which the access `a` arrives. -/
def arrives (a : Access) : State :=
  { State.reset with inputs := [{ reset := false, access := some a }] }

/-- One witness for each clause: the width, the alignment, the first and the last reserved offset. -/
theorem witness_BusErrorChangesNothing :
    ∀ a ∈ [(⟨0x28, 4, .read⟩ : Access), ⟨0x1C, 8, .write 1⟩, ⟨0x58, 8, .read⟩,
        ⟨0x78, 8, .write 1⟩],
      (arrives a).arriving.reset = false ∧ (arrives a).executing = 0 ∧
      (arrives a).received.waiting = [a] ∧ a.inWindow (arrives a).params.base = true ∧
      (a.bytes ≠ 8 ∨ (a.addr - (arrives a).params.base) % 8 ≠ 0 ∨
        0x58 ≤ a.addr - (arrives a).params.base) := by decide

theorem witness_ReadsReturnTheRegister :
    ∀ r ∈ allRegs,
      let a : Access := { addr := State.reset.params.base + r.offset, bytes := 8, kind := .read }
      (arrives a).arriving.reset = false ∧ (arrives a).executing = 0 ∧
      (arrives a).received.waiting = [a] := by decide

theorem witness_WritesByRegister :
    ∀ r ∈ [Reg.id, .status, .opa, .opb, .ctr, .key, .r0, .r1, .r2, .r3],
      let a : Access :=
        { addr := State.reset.params.base + r.offset, bytes := 8, kind := .write 4 }
      (arrives a).arriving.reset = false ∧ (arrives a).executing = 0 ∧ r ≠ .cmd ∧
      (arrives a).received.waiting = [a] := by decide

theorem witness_StepRunsTheDecodedCommand :
    ∀ i ∈ allInstrs,
      let s := arrives (cmdWrite State.reset.params (encode i))
      s.arriving.reset = false ∧ s.executing = 0 ∧
      s.received.waiting = [cmdWrite s.params (encode i)] ∧ decode (encode i) = .ok i := by decide

/-- An illegal word by its `MBZ` and one by its `OPC`. -/
theorem witness_StepRunsTheDecodedCommand_illegal :
    let s := arrives (cmdWrite State.reset.params 0x102)
    s.arriving.reset = false ∧ s.executing = 0 ∧
    s.received.waiting = [cmdWrite s.params 0x102] ∧ (∀ i, decode 0x102 ≠ .ok i) ∧
    ∀ i, decode 0x10 ≠ .ok i :=
  ⟨by decide, by decide, by decide, fun i => by cases i <;> decide, fun i => by cases i <;> decide⟩

/-- A block in the middle of a command, with one access arriving. -/
def busy : State := { arrives ⟨0x38, 8, .read⟩ with executing := 1 }

theorem witness_AccessesHeldWhileExecuting :
    busy.arriving.reset = false ∧ busy.executing ≠ 0 := by decide

theorem witness_HoldEndsWithinLatency :
    (∀ c ∈ busy.inputs.take busy.executing, c.reset = false) ∧ busy.executing ≠ 0 := by decide

theorem witness_IdleKeepsEveryRegister :
    (created 0 K 0 0).arriving = Cycle.idle ∧ (created 0 K 0 0).waiting = [] ∧
    (created 0 K 0 0).executing = 0 := by decide

/-- A created block that is reset; nothing waits, arrives or runs. -/
def resetting : State := { created 3 K 0 0 with inputs := [{ reset := true, access := none }] }

theorem witness_ResetTakesEveryRegister :
    resetting.arriving.reset = true ∧ resetting.waiting = [] ∧
    resetting.arriving.access = none ∧ resetting.executing = 0 ∧
    resetting.status.valid = true ∧
    ∃ t, step resetting = .next t ∧ t.status.valid = false :=
  ⟨by decide, by decide, by decide, by decide, by decide, _, rfl, rfl⟩

theorem witness_GeneratorChangesOnlyByCommandOrReset :
    let s := { arrives (cmdWrite State.reset.params 1) with opa := 5, opb := K }
    s.arriving.reset = false ∧
    ∃ t, step s = .next t ∧ t.ctr ≠ s.ctr ∧ t.key ≠ s.key := by
  refine ⟨by decide, _, rfl, ?_, ?_⟩ <;> decide

theorem witness_StepKeepsInvariant :
    Inv State.reset ∧ ∃ t, step State.reset = .next t :=
  ⟨⟨by decide, by decide, by decide, by decide⟩, _, rfl⟩

theorem witness_WellFormedAccessesNeverFault :
    accessesOk (arrives (cmdWrite State.reset.params 1)) := by
  refine ⟨by decide, ?_⟩
  intro c hc a ha
  simp only [arrives, List.mem_singleton] at hc
  subst hc
  cases ha
  decide

end Sys2Proof.Tests
end

section
/-! Host writes to the registers other than `CMD` (R29, R57). -/

namespace Sys2Proof.Machine

/-- R29: only bit 2 of a word written to `STATUS` has an effect, and only on `STICKY`. -/
theorem Status.hostWritten_eq (st : Status) (v : Word) :
    st.hostWritten v = if v.getLsbD 2 = true then { st with sticky := false } else st := rfl

/-- R57: a write to a register other than `CMD` reaches `OPA`, `OPB` and `STATUS` and no other field. -/
theorem writeReg_eq_of_ne_cmd {r : Reg} (hr : r ≠ .cmd) (v : Word) (s : State) :
    writeReg r v s = { s with
      opa := if r = .opa then v else s.opa
      opb := if r = .opb then v else s.opb
      status := if r = .status then s.status.hostWritten v else s.status } := by
  cases r with
  | cmd => exact absurd rfl hr
  | id | status | opa | opb | ctr | key | r0 | r1 | r2 | r3 => rfl

/-- An 8-byte write at the offset of a register other than `CMD` stores the value and is answered. -/
theorem perform_write_of_ne_cmd {r : Reg} (hr : r ≠ .cmd) (v : Word) (s : State) :
    perform { addr := s.params.base + r.offset, bytes := 8, kind := .write v } s =
      .next { writeReg r v s with response := some .writeDone } := by
  simp only [perform, selectReg_offset, if_neg hr]

/-- Settles O48: the step performs the write, and the register selects what the write reaches. -/
theorem writesByRegister : Obligations.WritesByRegister := by
  intro s r v rest hreset hidle hr hw
  have hstep : step s =
      .next { writeReg r v { s.received with waiting := rest } with response := some .writeDone } :=
    (step_perform hreset hidle hw).trans (perform_write_of_ne_cmd hr v _)
  rw [hstep, writeReg_eq_of_ne_cmd hr]
  simp only [Status.hostWritten_eq, State.received, ite_and]

end Sys2Proof.Machine
end

section
/-! The register window (spec/20_memory.md): the bytes of a register, the map of offsets, reads. -/

namespace Sys2Proof.Machine

/-- R51: the map holds nothing past the last register. -/
theorem regAt_eq_none_of_reserved {off : Nat} (h : 0x58 ≤ off) : regAt off = none := by
  refine Option.eq_none_iff_forall_ne_some.2 fun r hr => ?_
  have hoff := regAt_eq_some hr
  have := offset_lt r
  omega

/-- R55: the window has a byte at each of the eight addresses of a register. -/
theorem windowByte_offset_add (s : State) (r : Reg) {k : Nat} (hk : k < 8) :
    windowByte s (r.offset + k) = some (byteOfWord (readReg s r) k) := by
  have haligned := offset_aligned r
  have hdiv : 8 * ((r.offset + k) / 8) = r.offset := by omega
  have hmod : (r.offset + k) % 8 = k := by omega
  simp only [windowByte, hdiv, hmod, regAt_offset, Option.map_some]

/-- R51: the window has no byte past the last register. -/
theorem windowByte_eq_none_of_reserved (s : State) {off : Nat} (h : 0x58 ≤ off) :
    windowByte s off = none := by
  have haligned : 0x58 ≤ 8 * (off / 8) := by omega
  simp only [windowByte, regAt_eq_none_of_reserved haligned, Option.map_none]

/-- R55: a word is the eight bytes it is cut into, lowest first. -/
theorem wordOfBytes_byteOfWord (w : Word) :
    wordOfBytes (byteOfWord w 0) (byteOfWord w 1) (byteOfWord w 2) (byteOfWord w 3)
      (byteOfWord w 4) (byteOfWord w 5) (byteOfWord w 6) (byteOfWord w 7) = w := by
  simp (disch := rfl) only [wordOfBytes, byteOfWord,
    BitVec.extractLsb'_append_extractLsb'_eq_extractLsb']
  exact BitVec.extractLsb'_eq_self

/-- Settles O44: the bytes of a register's window are `byteOfWord` of its value. -/
theorem windowIsLittleEndian : Obligations.WindowIsLittleEndian := fun s =>
  ⟨fun r => ⟨byteOfWord (readReg s r),
    fun _ hk => ⟨windowByte_offset_add s r hk, rfl⟩, wordOfBytes_byteOfWord _⟩,
   fun _ hoff _ => windowByte_eq_none_of_reserved s hoff⟩

/-- An access in the window selects a register or gets the bus error of R54. -/
theorem selectReg_of_inWindow {base : Nat} {a : Access} (h : a.inWindow base = true) :
    (∃ r, selectReg base a = .ok r) ∨ selectReg base a = .error .busError := by
  have hin : ¬(a.addr < base || base + 0x80 ≤ a.addr) = true := by
    simp only [Access.inWindow, Bool.and_eq_true, decide_eq_true_eq] at h
    simp only [Bool.or_eq_true, decide_eq_true_eq]
    omega
  rw [selectReg, if_neg hin]
  split
  · exact .inr rfl
  · cases regAt (a.addr - base) with
    | some r => exact .inl ⟨r, rfl⟩
    | none => exact .inr rfl

/-- An 8-byte access at the offset of a register is well-formed (R51 to R53). -/
theorem wellFormed_of_offset {base : Nat} {a : Access} {r : Reg} (hbytes : a.bytes = 8)
    (haddr : a.addr = base + r.offset) : a.wellFormed base = true := by
  have := offset_lt r
  have := offset_aligned r
  simp only [Access.wellFormed, Access.inWindow, Bool.and_eq_true, decide_eq_true_eq, beq_iff_eq]
  omega

/-- R52: a well-formed access is 8 bytes wide. -/
theorem bytes_of_wellFormed {base : Nat} {a : Access} (h : a.wellFormed base = true) :
    a.bytes = 8 := by
  simp only [Access.wellFormed, Bool.and_eq_true, beq_iff_eq] at h
  obtain ⟨⟨⟨-, hbytes⟩, -⟩, -⟩ := h
  exact hbytes

/-- R51 to R53: what selects a register. -/
theorem selectReg_eq_ok_iff {base : Nat} {a : Access} {r : Reg} :
    selectReg base a = .ok r ↔ a.wellFormed base = true ∧ a.addr = base + r.offset := by
  constructor
  · intro h
    obtain ⟨hbytes, haddr⟩ := selectReg_ok h
    exact ⟨wellFormed_of_offset hbytes haddr, haddr⟩
  · rintro ⟨hwf, haddr⟩
    have hbytes := bytes_of_wellFormed hwf
    obtain ⟨addr, bytes, kind⟩ := a
    subst haddr hbytes
    exact selectReg_offset base r kind

/-- Settles O45: an access in the window that selects nothing gets the bus error, and one that selects
a register is well-formed. -/
theorem selectionMatchesTheMap : Obligations.SelectionMatchesTheMap := by
  refine fun base a => ⟨fun r => selectReg_eq_ok_iff, fun hin hmalformed => ?_⟩
  obtain ⟨r, hr⟩ | herror := selectReg_of_inWindow hin
  · obtain ⟨hwf, -⟩ := selectReg_eq_ok_iff.1 hr
    exact absurd hwf (by simp [hmalformed])
  · exact herror

/-- R56: an 8-byte read at a register's offset is answered with the register and changes nothing. -/
theorem perform_read (r : Reg) (s : State) :
    perform { addr := s.params.base + r.offset, bytes := 8, kind := .read } s =
      .next { s with response := some (.readData (readReg s r)) } := by
  simp only [perform, selectReg_offset]

/-- Settles O47: the step performs the read. -/
theorem readsReturnTheRegister : Obligations.ReadsReturnTheRegister := by
  intro s r rest hreset hidle hw
  have hstep : step s = .next { { s.received with waiting := rest } with
      response := some (.readData (readReg { s.received with waiting := rest } r)) } :=
    (step_perform hreset hidle hw).trans (perform_read r _)
  rw [hstep]
  cases r <;> rfl

end Sys2Proof.Machine
end

section
/-! The decoder (spec/30_encoding.md R80 to R84): the words it takes, and a write of a word to `CMD`. -/

namespace Sys2Proof.Machine

/-- R83: the opcode map inverts the opcode column. -/
theorem decodeOpc_eq_some_iff {opc : BitVec 8} {i : Instr} :
    decodeOpc opc = some i ↔ opcode i = opc := by
  constructor
  · intro h
    unfold decodeOpc at h
    split at h <;> cases h <;> exact BitVec.eq_of_toNat_eq (Eq.symm ‹_›)
  · rintro rfl
    cases i <;> rfl

/-- R84: the opcodes outside 0x01 to 0x0F are reserved. -/
theorem exists_decodeOpc_iff {opc : BitVec 8} :
    (∃ i, decodeOpc opc = some i) ↔ 1 ≤ opc.toNat ∧ opc.toNat ≤ 15 := by
  constructor
  · rintro ⟨i, hi⟩
    obtain rfl := decodeOpc_eq_some_iff.1 hi
    cases i <;> decide
  · rintro ⟨hlow, hhigh⟩
    unfold decodeOpc
    generalize opc.toNat = n at hlow hhigh
    interval_cases n <;> exact ⟨_, rfl⟩

/-- R81: the `MBZ` check, then the opcode map. -/
theorem decode_eq_ok_iff {w : Word} {i : Instr} :
    decode w = .ok i ↔ mbzOf w = 0 ∧ decodeOpc (opcOf w) = some i := by
  by_cases hmbz : mbzOf w = 0
  · simp only [decode, hmbz, ne_eq, not_true_eq_false, if_false, true_and]
    cases decodeOpc (opcOf w) <;> simp
  · simp only [decode, hmbz, ne_eq, not_false_eq_true, if_true, reduceCtorEq, false_and]

/-- R80, R81: the legal words, by the two fields the decoder reads. -/
theorem wordWellFormed_iff {w : Word} :
    wordWellFormed w = true ↔ mbzOf w = 0 ∧ 1 ≤ (opcOf w).toNat ∧ (opcOf w).toNat ≤ 15 := by
  have hmbz : mbzOf w = 0 ↔ w.toNat / 2 ^ 8 = 0 := by
    simp only [mbzOf, ← BitVec.toNat_inj, BitVec.extractLsb'_toNat, BitVec.ofNat_eq_ofNat,
      BitVec.toNat_ofNat]
    omega
  have hopc : (opcOf w).toNat = w.toNat % 2 ^ 8 := by
    simp only [opcOf, BitVec.extractLsb'_toNat, Nat.shiftRight_zero]
  simp only [wordWellFormed, hmbz, hopc, Bool.and_eq_true, beq_iff_eq, decide_eq_true_eq]

/-- R81: the decoder takes the legal words and no others. -/
theorem exists_decode_iff {w : Word} : (∃ i, decode w = .ok i) ↔ wordWellFormed w = true := by
  simp only [decode_eq_ok_iff, exists_and_left, exists_decodeOpc_iff, wordWellFormed_iff]

/-- R27, R81: a word that decodes is stored in `CMD` and its command executed. -/
theorem runCommand_of_decode {w : Word} {i : Instr} (h : decode w = .ok i) (s : State) :
    runCommand w s = exec i { s with cmd := w } := by
  simp only [runCommand, h, writeReg]

/-- R82, R84: a word that is not legal is stored in `CMD` and raises `IllegalCommand`. -/
theorem runCommand_of_illegal {w : Word} (h : wordWellFormed w = false) (s : State) :
    runCommand w s = .next { s with
      cmd := w
      status := { s.status with err := some .illegalCommand, sticky := true } } := by
  cases hw : decode w with
  | ok i => exact absurd (exists_decode_iff.1 ⟨i, hw⟩) (by simp [h])
  | error e => simp only [runCommand, hw, writeReg, raise, Status.failed]

/-- Settles O3: the words taken, the row selected, and the write to `CMD` of either kind of word. -/
theorem decoderAcceptsExactlyLegalWords : Obligations.DecoderAcceptsExactlyLegalWords := by
  refine fun w => ⟨exists_decode_iff, fun i hi => ⟨?_, runCommand_of_decode hi⟩,
    runCommand_of_illegal⟩
  obtain ⟨-, hopc⟩ := decode_eq_ok_iff.1 hi
  exact decodeOpc_eq_some_iff.1 hopc

/-- Settles O25: a nonzero `MBZ` or a reserved `OPC` makes the word illegal. -/
theorem illegalWordRaises : Obligations.IllegalWordRaises := by
  refine fun w s h => runCommand_of_illegal (Bool.eq_false_iff.2 fun hwf => ?_) s
  obtain ⟨hmbz, hlow, hhigh⟩ := wordWellFormed_iff.1 hwf
  obtain h | h | h := h
  · exact h hmbz
  · simp [opcOf, h] at hlow
  · exact absurd (h.trans hhigh) (by decide)

end Sys2Proof.Machine
end

section
/-! The generator core (spec/40_core.md): the mixing function, `LOAD`, `RAW` and runs of `RAW`. -/

namespace Sys2Proof.Machine

/-- R100: the rotation swaps the two halves of the word. -/
theorem rot32_toNat (v : Word) :
    (rot32 v).toNat = v.toNat % 2 ^ 32 * 2 ^ 32 + v.toNat / 2 ^ 32 := by
  have hhigh : v.toNat / 2 ^ 32 < 2 ^ 32 := by have := v.isLt; omega
  have hlow : v.toNat * 2 ^ 32 % 2 ^ 64 = v.toNat % 2 ^ 32 * 2 ^ 32 :=
    Nat.mul_mod_mul_right (2 ^ 32) v.toNat (2 ^ 32)
  calc (rot32 v).toNat
      = v.toNat / 2 ^ 32 ||| v.toNat * 2 ^ 32 % 2 ^ 64 := by
        simp only [rot32, BitVec.toNat_or, BitVec.toNat_ushiftRight, BitVec.toNat_shiftLeft,
          Nat.shiftRight_eq_div_pow, Nat.shiftLeft_eq]
    _ = (v.toNat % 2 ^ 32) <<< 32 ||| v.toNat / 2 ^ 32 := by
        rw [hlow, Nat.lor_comm, Nat.shiftLeft_eq]
    _ = v.toNat % 2 ^ 32 * 2 ^ 32 + v.toNat / 2 ^ 32 := by
        rw [← Nat.shiftLeft_add_eq_or_of_lt hhigh, Nat.shiftLeft_eq]

/-- Settles O4: on naturals the words' sums and products wrap, and the rotation is `rot32_toNat`. -/
theorem mixingFunctionOnNaturals : Obligations.MixingFunctionOnNaturals := by
  refine fun c k => ⟨?_, squares_lt c k⟩
  simp only [squares, BitVec.toNat_ushiftRight, Nat.shiftRight_eq_div_pow, rot32_toNat,
    BitVec.toNat_add, BitVec.toNat_mul]

/-- Settles O8: `exec_load`, with the fields of the status written out. -/
theorem loadResult : Obligations.LoadResult := exec_load

/-- R254: every command but `LOAD` fails on a block that is not created. -/
theorem failsUncreated_of_ne_load {i : Instr} (hi : i ≠ .load) : failsUncreated i := by
  intro s hv
  have hexec : exec i s = .next (raise .notCreated s) := by
    obtain ⟨hload, -⟩ | ⟨-, -, h⟩ | ⟨-, hcreated, -⟩ | ⟨-, hcreated, -⟩ := exec_cases i s
    · exact absurd hload hi
    · exact h
    · simp [hv] at hcreated
    · simp [hv] at hcreated
  rw [hexec, raise, Status.failed, hv]

/-- R116: `RAW` on a created block. -/
theorem exec_raw_created {s : State} (hv : s.status.valid = true) : exec .raw s =
    .next { s with
      ctr := s.ctr + 1
      r0 := squares s.ctr s.key
      status := { s.status with err := none } } :=
  calc exec .raw s
      = whenCreated s fun s => deliver (draw s).1 (draw s).2 := rfl
    _ = deliver (draw s).1 (draw s).2 := whenCreated_created hv _
    _ = _ := rfl

/-- Settles O9: the created block by `exec_raw_created`, the other as every command but `LOAD`. -/
theorem rawResult : Obligations.RawResult :=
  ⟨fun _ => exec_raw_created, failsUncreated_of_ne_load (by decide)⟩

/-- The first command of a list that answers a state leaves the rest to run from it. -/
theorem runCommands_cons_of_next {i : Instr} {s t : State} (h : exec i s = .next t)
    (is : List Instr) : runCommands (i :: is) s = runCommands is t := by
  simp only [runCommands, h]

/-- R104: the state after one `RAW` and `n` more, the last of which draws at `CTR + n`. -/
theorem runCommands_replicate_raw (n : Nat) {s : State} (hv : s.status.valid = true) :
    runCommands (List.replicate (n + 1) .raw) s =
      .next { s with
        ctr := s.ctr + BitVec.ofNat 64 (n + 1)
        r0 := squares (s.ctr + BitVec.ofNat 64 n) s.key
        status := { s.status with err := none } } := by
  induction n generalizing s with
  | zero =>
    rw [List.replicate_succ, runCommands_cons_of_next (exec_raw_created hv)]
    simp [runCommands]
  | succ n ih =>
    have hctr (m : Nat) : s.ctr + 1 + BitVec.ofNat 64 m = s.ctr + BitVec.ofNat 64 (m + 1) := by
      rw [BitVec.add_assoc, BitVec.add_comm 1, BitVec.ofNat_add]
      rfl
    rw [List.replicate_succ, runCommands_cons_of_next (exec_raw_created hv), ih]
    · simp only [hctr]
    · exact hv

/-- Settles O7: no command leaves the state as it is, and `runCommands_replicate_raw` gives the state
after one or more. -/
theorem counterProgression : Obligations.CounterProgression := by
  intro K s hv
  cases K with
  | zero => exact ⟨s, rfl, (BitVec.add_zero _).symm, rfl, hv, fun h => absurd h (Nat.lt_irrefl 0)⟩
  | succ n => exact ⟨_, runCommands_replicate_raw n hv, rfl, rfl, hv, fun _ => rfl⟩

end Sys2Proof.Machine
end

section
/-! The unit values (spec/41_unit.md): the commands that deliver one value after one scaled draw, and
`UNIT32` and `UNIT64` among them. -/

namespace Sys2Proof.Machine

/-- R130, R132, R133: the unit value of one draw, written out. -/
theorem drawUnit_value (F : Format) (s : State) :
    (drawUnit F s).1 =
      divF F (cvt F (reduceDraw (squares s.ctr s.key)).toNat) (cvt F 4294967295) := rfl

/-- A scalar command on a created block whose one draw is a unit value: `R0` is the value delivered, and
besides it only `CTR` and `ERR` change. -/
theorem whenCreated_deliver_drawUnit {s : State} (hv : s.status.valid = true) (F : Format)
    (value : State → Word) :
    whenCreated s (fun s => deliver (value s) (drawUnit F s).2) =
      .next { s with
        ctr := s.ctr + 1
        r0 := value s
        status := { s.status with err := none } } :=
  calc whenCreated s (fun s => deliver (value s) (drawUnit F s).2)
      = deliver (value s) (drawUnit F s).2 := whenCreated_created hv _
    _ = deliver (value s) { s with ctr := s.ctr + 1 } := by rw [drawUnit_state]
    _ = _ := rfl

/-- Settles O10: on the created block `UNIT32` delivers the unit value in F32; the other block fails as
for every command but `LOAD`. -/
theorem unit32Result : Obligations.Unit32Result := by
  refine ⟨fun s hv => ?_, failsUncreated_of_ne_load (by decide)⟩
  simp only [exec, execUnit32, whenCreated_deliver_drawUnit hv, drawUnit_value]

/-- Settles O11: as O10, in F64. -/
theorem unit64Result : Obligations.Unit64Result := by
  refine ⟨fun s hv => ?_, failsUncreated_of_ne_load (by decide)⟩
  simp only [exec, execUnit64, whenCreated_deliver_drawUnit hv, drawUnit_value]

end Sys2Proof.Machine
end

section
/-! The range commands (spec/42_range.md): the four results, the round-to-integer step and the
narrowing by saturation. -/

namespace Sys2Proof.Machine

/-! ## The results (R157, R161, R165, R169) -/

/-- Settles O12: on the created block `RANGEF32` delivers the F32 remap by the unit value of its one
draw; the other block fails as for every command but `LOAD`. -/
theorem rangeF32Result : Obligations.RangeF32Result := by
  refine ⟨fun s hv => ?_, failsUncreated_of_ne_load (by decide)⟩
  simp only [exec, execRangef32, whenCreated_deliver_drawUnit hv, rangeOf, drawUnit_value, unitOf]

/-- Settles O13: as O12, in F64. -/
theorem rangeF64Result : Obligations.RangeF64Result := by
  refine ⟨fun s hv => ?_, failsUncreated_of_ne_load (by decide)⟩
  simp only [exec, execRangef64, whenCreated_deliver_drawUnit hv, rangeOf, drawUnit_value, unitOf]

/-- Settles O14: as O12, with the integer `rangeInt` of the F32 remap delivered. -/
theorem rangeI32Result : Obligations.RangeI32Result := by
  refine ⟨fun s hv => ?_, failsUncreated_of_ne_load (by decide)⟩
  simp only [exec, execRangei32, whenCreated_deliver_drawUnit hv, rangeInt, operandI32,
    drawUnit_value, unitOf]

/-- Settles O15: as O14, in F64 and 64 bits. -/
theorem rangeI64Result : Obligations.RangeI64Result := by
  refine ⟨fun s hv => ?_, failsUncreated_of_ne_load (by decide)⟩
  simp only [exec, execRangei64, whenCreated_deliver_drawUnit hv, rangeInt, operandI64,
    drawUnit_value, unitOf]

/-! ## Ties of the round-to-integer step (R152) -/

theorem roundQuot_below_half (ties : RoundTies) {num den : Nat} (h : 2 * (num % den) < den) :
    roundQuot ties num den = num / den := if_pos h

theorem roundQuot_above_half (ties : RoundTies) {num den : Nat} (h : den < 2 * (num % den)) :
    roundQuot ties num den = num / den + 1 := (if_neg h.not_gt).trans (if_pos h)

theorem roundQuot_even_halfway {num den : Nat} (h : 2 * (num % den) = den) :
    roundQuot .even num den = num / den + num / den % 2 :=
  (if_neg h.not_lt).trans (if_neg h.not_gt)

theorem roundQuot_away_halfway {num den : Nat} (h : 2 * (num % den) = den) :
    roundQuot .away num den = num / den + 1 :=
  (if_neg h.not_lt).trans (if_neg h.not_gt)

/-- Only a quotient exactly halfway between two integers is half the divisor off its rounding. -/
theorem halfway_of_roundQuot_bound_attained {ties : RoundTies} {num den : Nat} (hd : 0 < den)
    (h : 2 * (roundQuot ties num den * den) = 2 * num + den ∨
      2 * num = 2 * (roundQuot ties num den * den) + den) :
    2 * (num % den) = den := by
  have hdiv : num / den * den + num % den = num := Nat.div_add_mod' num den
  have hrem : num % den < den := Nat.mod_lt num hd
  obtain hdown | hhalf | hup := lt_trichotomy (2 * (num % den)) den
  · rw [roundQuot_below_half ties hdown] at h
    omega
  · exact hhalf
  · rw [roundQuot_above_half ties hup, Nat.add_mul, Nat.one_mul] at h
    omega

/-- Under `EVEN` a quotient halfway between two integers rounds to the even one. -/
theorem roundQuot_even_mod_two_of_halfway {num den : Nat} (h : 2 * (num % den) = den) :
    roundQuot .even num den % 2 = 0 := by
  rw [roundQuot_even_halfway h]
  omega

/-- Under `AWAY` a quotient halfway between two integers rounds to the larger one. -/
theorem lt_roundQuot_away_of_halfway {num den : Nat} (hd : 0 < den)
    (h : 2 * (num % den) = den) : num < roundQuot .away num den * den := by
  rw [roundQuot_away_halfway h]
  exact (Nat.div_lt_iff_lt_mul hd).1 (Nat.lt_succ_self _)

/-! ## The round-to-integer step on signed values -/

/-- `rint` of a finite value rounds the magnitude and keeps the sign. -/
theorem rint_fin (F : Format) (ties : RoundTies) (neg : Bool) (mag : Nat) :
    rint F ties (.fin neg mag) = signedUnits neg (roundQuot ties mag F.one) := by
  cases neg <;> rfl

@[simp] theorem natAbs_signedUnits (neg : Bool) (mag : Nat) :
    (signedUnits neg mag).natAbs = mag := by
  cases neg <;> simp [signedUnits]

theorem signedUnits_emod_two (neg : Bool) (mag : Nat) :
    signedUnits neg mag % 2 = (mag % 2 : Nat) := by
  cases neg <;> simp only [signedUnits, if_true, if_false, reduceCtorEq] <;> omega

/-- Two values of one sign are as far apart as their magnitudes. -/
theorem natAbs_signedUnits_mul_sub (neg : Bool) (k one mag : Nat) :
    (2 * (signedUnits neg k * one - signedUnits neg mag)).natAbs =
      (2 * ((k * one : Nat) : Int) - 2 * mag).natAbs := by
  cases neg with
  | false => simp only [signedUnits, reduceCtorEq, if_false, Nat.cast_mul, mul_sub]
  | true =>
    rw [← Int.natAbs_neg]
    congr 1
    simp only [signedUnits, if_true, Nat.cast_mul]
    ring

/-- Settles O38: a value and its rounding have one sign, so that the distance is that of the
magnitudes, which `roundQuot_bounds` bounds; the two bounds are attained by ties only. -/
theorem rintIsNearestInteger : Obligations.RintIsNearestInteger := by
  intro F ties neg mag
  obtain ⟨hupper, hlower⟩ := roundQuot_bounds ties mag F.one (one_pos F)
  simp only [rint_fin, natAbs_signedUnits_mul_sub, natAbs_signedUnits, signedUnits_emod_two]
  refine ⟨by omega, fun hattained => ?_⟩
  have hhalf := halfway_of_roundQuot_bound_attained (ties := ties) (num := mag) (one_pos F)
    (by omega)
  constructor
  · rintro rfl
    exact congrArg Nat.cast (roundQuot_even_mod_two_of_halfway hhalf)
  · rintro rfl
    exact lt_roundQuot_away_of_halfway (one_pos F) hhalf

/-! ## Narrowing by saturation (R153) -/

theorem sat_of_mem {bits : Nat} {n : Int} (hlow : -2 ^ (bits - 1) ≤ n)
    (hhigh : n ≤ 2 ^ (bits - 1) - 1) : sat bits n = n := by
  rw [sat, if_neg (not_lt.2 hhigh), if_neg (not_lt.2 hlow)]

theorem sat_of_above {bits : Nat} {n : Int} (h : 2 ^ (bits - 1) - 1 < n) :
    sat bits n = 2 ^ (bits - 1) - 1 := if_pos h

theorem sat_of_below {bits : Nat} {n : Int} (h : n < -2 ^ (bits - 1)) :
    sat bits n = -2 ^ (bits - 1) := by
  have hpos : (0 : Int) < 2 ^ (bits - 1) := by positivity
  rw [sat, if_neg (by omega), if_pos h]

/-- Settles O39: the three cases of `sat`, at the two widths. -/
theorem narrowingSaturates : Obligations.NarrowingSaturates := fun _ =>
  ⟨sat_of_mem (bits := 32), sat_of_above (bits := 32), sat_of_below (bits := 32),
   sat_of_mem (bits := 64), sat_of_above (bits := 64), sat_of_below (bits := 64)⟩

end Sys2Proof.Machine
end

section
/-! The vector commands (spec/43_vector.md): what the loop of R181 does for the last register of its
list, and from it the results of the three arities in either format. -/

namespace Sys2Proof.Machine

/-- The bits of component `i` of a vector command begun in `s`: the component of the draw at `CTR + i`
(R180, R181). -/
def componentAt (F : Format) (s : State) (i : Word) : Word :=
  resultF F (compOf F (reduceDraw (squares (s.ctr + i) s.key)))

theorem componentAt_f32 (s : State) (i : Word) : componentAt .f32 s i =
    resultF32 (rangeOf .f32 (.fin true (2 ^ 149)) (.fin false (2 ^ 149))
      (unitOf .f32 (reduceDraw (squares (s.ctr + i) s.key)))) := rfl

theorem componentAt_f64 (s : State) (i : Word) : componentAt .f64 s i =
    resultF64 (rangeOf .f64 (.fin true (2 ^ 1074)) (.fin false (2 ^ 1074))
      (unitOf .f64 (reduceDraw (squares (s.ctr + i) s.key)))) := by
  simp only [componentAt, resultF, compOf, onePoint, Format.one, Format.unitExp]

theorem fillComps_append (F : Format) (regs rest : List (Fin 4)) (s : State) :
    fillComps F (regs ++ rest) s = fillComps F rest (fillComps F regs s) := by
  induction regs generalizing s with
  | nil => rfl
  | cons i regs ih => rw [List.cons_append, fillComps, ih, fillComps]

theorem fillComps_key (F : Format) (regs : List (Fin 4)) (s : State) :
    (fillComps F regs s).key = s.key := by
  obtain ⟨_, _, _, _, _, h⟩ := fillComps_frame F regs s
  rw [h]

/-- The registers before the last take one draw each, so the last register's component is the one whose
number is their count. -/
theorem fillComps_concat (F : Format) (regs : List (Fin 4)) (i : Fin 4) (s : State) :
    fillComps F (regs ++ [i]) s =
      setResult i (componentAt F s (BitVec.ofNat 64 regs.length))
        { fillComps F regs s with ctr := s.ctr + BitVec.ofNat 64 (regs.length + 1) } := by
  have hctr : (fillComps F regs s).ctr + 1 = s.ctr + BitVec.ofNat 64 (regs.length + 1) := by
    rw [fillComps_ctr, BitVec.add_assoc, BitVec.ofNat_add]
    rfl
  calc fillComps F (regs ++ [i]) s
      = fillComps F [i] (fillComps F regs s) := fillComps_append F regs [i] s
    _ = setResult i
          (resultF F (compOf F
            (reduceDraw (squares (fillComps F regs s).ctr (fillComps F regs s).key))))
          { fillComps F regs s with ctr := (fillComps F regs s).ctr + 1 } := rfl
    _ = _ := by rw [hctr, fillComps_ctr, fillComps_key, componentAt]

/-! ## The three arities on a created block (R185 to R200)

Each proof writes the list as it grows at its end, one `fillComps_concat` per register. -/

section
variable {s : State} (hv : s.status.valid = true) (F : Format)
include hv

theorem vectorOp_two : vectorOp F [0, 1] s = .next { s with
    ctr := s.ctr + 2, r0 := componentAt F s 0, r1 := componentAt F s 1
    status := { s.status with err := none } } := by
  change vectorOp F ([] ++ [0] ++ [1]) s = _
  simp only [vectorOp, whenCreated_created hv, fillComps_concat]
  rfl

theorem vectorOp_three : vectorOp F [0, 1, 2] s = .next { s with
    ctr := s.ctr + 3, r0 := componentAt F s 0, r1 := componentAt F s 1, r2 := componentAt F s 2
    status := { s.status with err := none } } := by
  change vectorOp F ([] ++ [0] ++ [1] ++ [2]) s = _
  simp only [vectorOp, whenCreated_created hv, fillComps_concat]
  rfl

theorem vectorOp_four : vectorOp F [0, 1, 2, 3] s = .next { s with
    ctr := s.ctr + 4, r0 := componentAt F s 0, r1 := componentAt F s 1, r2 := componentAt F s 2
    r3 := componentAt F s 3, status := { s.status with err := none } } := by
  change vectorOp F ([] ++ [0] ++ [1] ++ [2] ++ [3]) s = _
  simp only [vectorOp, whenCreated_created hv, fillComps_concat]
  rfl

end

/-- Settles O16: the three arities in F32; the block that is not created fails as for every command but
`LOAD`. -/
theorem vectorF32Results : Obligations.VectorF32Results := by
  refine ⟨fun s hv => ?_, failsUncreated_of_ne_load (by decide),
    failsUncreated_of_ne_load (by decide), failsUncreated_of_ne_load (by decide)⟩
  simp only [← componentAt_f32]
  exact ⟨vectorOp_two hv .f32, vectorOp_three hv .f32, vectorOp_four hv .f32⟩

/-- Settles O17: as O16, in F64. -/
theorem vectorF64Results : Obligations.VectorF64Results := by
  refine ⟨fun s hv => ?_, failsUncreated_of_ne_load (by decide),
    failsUncreated_of_ne_load (by decide), failsUncreated_of_ne_load (by decide)⟩
  simp only [← componentAt_f64]
  exact ⟨vectorOp_two hv .f64, vectorOp_three hv .f64, vectorOp_four hv .f64⟩

end Sys2Proof.Machine
end

section
/-! `INDEX` (spec/44_index.md): its two outcomes on a created block. -/

namespace Sys2Proof.Machine

/-- R211: a created block runs the zero check on `OPA`, and past it one scaled draw. -/
theorem exec_index_created {s : State} (hv : s.status.valid = true) : exec .index s =
    if s.opa = 0 then .next (raise .domainError s)
    else deliver ((scaled s).1 % s.opa) (scaled s).2 := by
  rw [exec, execIndex, whenCreated_created hv]

/-- R211: with `size` nonzero `R0` is the scaled value modulo `size`. -/
theorem exec_index_of_opa_ne_zero {s : State} (hv : s.status.valid = true) (hsize : s.opa ≠ 0) :
    exec .index s = .next { s with
      ctr := s.ctr + 1
      r0 := reduceDraw (squares s.ctr s.key) % s.opa
      status := { s.status with err := none } } :=
  calc exec .index s
      = deliver ((scaled s).1 % s.opa) (scaled s).2 :=
        (exec_index_created hv).trans (if_neg hsize)
    _ = _ := rfl

/-- R213: with `size` zero the check raises `DomainError` before any draw. -/
theorem exec_index_of_opa_eq_zero {s : State} (hv : s.status.valid = true) (hsize : s.opa = 0) :
    exec .index s = .next { s with
      status := { s.status with err := some .domainError, sticky := true } } :=
  calc exec .index s
      = .next (raise .domainError s) := (exec_index_created hv).trans (if_pos hsize)
    _ = _ := rfl

/-- Settles O18: the created block by the zero check on `OPA`, the other as every command but `LOAD`. -/
theorem indexResult : Obligations.IndexResult :=
  ⟨fun _ hv => ⟨exec_index_of_opa_ne_zero hv, exec_index_of_opa_eq_zero hv⟩,
   failsUncreated_of_ne_load (by decide)⟩

end Sys2Proof.Machine
end

section
/-! The errors of commands (spec/60_exceptions.md R220 to R224): the one error that a command ends in,
what it leaves in `STATUS`, and the priority over all command words. -/

namespace Sys2Proof.Machine

/-- The error a command ends in, the first that applies of `NotCreated` (R254) and `DomainError` (R212),
or none (R224). -/
def commandError (i : Instr) (s : State) : Option CmdError :=
  if i ≠ .load ∧ s.status.valid = false then some .notCreated
  else if i = .index ∧ s.opa = 0 then some .domainError
  else none

/-- `LOAD` ends in no error (R112). -/
theorem commandError_load (s : State) : commandError .load s = none := by
  simp [commandError]

/-- On a created block only `INDEX` with size 0 ends in an error (R221). -/
theorem commandError_eq_none_iff_of_created {i : Instr} {s : State} (hv : s.status.valid = true) :
    commandError i s = none ↔ (i = .index → s.opa ≠ 0) := by
  simp [commandError, hv]

/-- R83: a word decodes to a command exactly if it is the command's word. -/
theorem decode_eq_ok_iff_eq_encode {w : Word} {i : Instr} : decode w = .ok i ↔ w = encode i := by
  constructor
  · intro h
    obtain ⟨hmbz, hopc⟩ := decode_eq_ok_iff.1 h
    calc w = mbzOf w ++ opcOf w := by
          simp (disch := rfl) only [mbzOf, opcOf,
            BitVec.extractLsb'_append_extractLsb'_eq_extractLsb']
          exact BitVec.extractLsb'_eq_self.symm
      _ = encode i := by rw [hmbz, ← decodeOpc_eq_some_iff.1 hopc, encode]
  · rintro rfl
    cases i <;> rfl

/-- A word that decodes to one command is the word of no other. -/
theorem eq_encode_iff_of_decode {w : Word} {i : Instr} (h : decode w = .ok i) (j : Instr) :
    w = encode j ↔ i = j := by
  rw [← decode_eq_ok_iff_eq_encode, h, Except.ok.injEq]

/-- R221: a command either raises its error and changes nothing else, or has none and succeeds (R223). -/
theorem exec_by_commandError (i : Instr) (s : State) :
    (∃ e, commandError i s = some e ∧ exec i s = .next (raise e s)) ∨
    (commandError i s = none ∧ ∃ t, exec i s = .next t ∧
      t.status = { valid := true, sticky := s.status.sticky, err := none }) := by
  obtain ⟨rfl, h⟩ | ⟨hi, hv, h⟩ | ⟨rfl, hv, hsize, h⟩ | ⟨-, hv, hsize, t, h, ht⟩ := exec_cases i s
  · exact .inr ⟨commandError_load s, _, h, rfl⟩
  · exact .inl ⟨_, if_pos ⟨hi, hv⟩, h⟩
  · exact .inl ⟨_, by simp [commandError, hv, hsize], h⟩
  · refine .inr ⟨(commandError_eq_none_iff_of_created hv).2 hsize, t, h, ?_⟩
    rw [succeeds_status ht, Status.succeeded, hv]

/-- Every command completes, with its error in `ERR`. -/
theorem exec_status_err (i : Instr) (s : State) :
    ∃ t, exec i s = .next t ∧ t.status.err = commandError i s := by
  obtain ⟨e, he, h⟩ | ⟨hnone, t, h, ht⟩ := exec_by_commandError i s
  · exact ⟨_, h, he.symm⟩
  · exact ⟨t, h, by rw [ht, hnone]⟩

/-- R222: a command that leaves an error in `ERR` has raised it and done nothing else. -/
theorem eq_raise_of_exec_of_err {i : Instr} {s t : State} {e : CmdError}
    (h : exec i s = .next t) (herr : t.status.err = some e) : t = raise e s := by
  obtain ⟨e', -, h'⟩ | ⟨-, t', h', ht'⟩ := exec_by_commandError i s
  · cases h.symm.trans h'
    cases herr
    rfl
  · cases h.symm.trans h'
    simp [ht'] at herr

/-- Settles O20: the error left in `ERR` is `commandError`, whose conditions name the command. -/
theorem commandsCompleteWithTheirErrors : Obligations.CommandsCompleteWithTheirErrors := by
  intro i s
  obtain ⟨t, h, herr⟩ := exec_status_err i s
  refine ⟨t, h, ?_⟩
  rw [herr, commandError]
  split
  next huncreated =>
    obtain ⟨hi, -⟩ := huncreated
    exact .inr (.inl ⟨rfl, hi⟩)
  next =>
    split
    next hsize =>
      obtain ⟨hi, -⟩ := hsize
      exact .inr (.inr ⟨rfl, hi⟩)
    next => exact .inl rfl

/-- Settles O21: an illegal word raises its error at once, and a legal one is its command's `exec`. -/
theorem commandErrorsArePrecise : Obligations.CommandErrorsArePrecise := by
  intro w s t e h herr
  cases hwf : wordWellFormed w with
  | false =>
    cases h.symm.trans (runCommand_of_illegal hwf s)
    cases herr
    rfl
  | true =>
    obtain ⟨i, hi⟩ := exists_decode_iff.2 hwf
    exact eq_raise_of_exec_of_err ((runCommand_of_decode hi s).symm.trans h) herr

/-- Settles O22: under its hypotheses no error applies. -/
theorem successKeepsSticky : Obligations.SuccessKeepsSticky := by
  intro i s hcreated hsize
  have hnone : commandError i s = none := by
    obtain rfl | hv := hcreated
    · exact commandError_load s
    · exact (commandError_eq_none_iff_of_created hv).2 hsize
  obtain ⟨e, he, -⟩ | ⟨-, hsuccess⟩ := exec_by_commandError i s
  · simp [hnone] at he
  · exact hsuccess

/-- Settles O26: the words of `LOAD` and `INDEX` turn the chain over words into `commandError`. -/
theorem errorPriority : Obligations.ErrorPriority := by
  intro w s
  cases hwf : wordWellFormed w with
  | false => exact ⟨_, runCommand_of_illegal hwf s, rfl⟩
  | true =>
    obtain ⟨i, hi⟩ := exists_decode_iff.2 hwf
    have hload : w = 0x01 ↔ i = .load := eq_encode_iff_of_decode hi .load
    have hindex : w = 0x0F ↔ i = .index := eq_encode_iff_of_decode hi .index
    obtain ⟨t, h, herr⟩ := exec_status_err i { s with cmd := w }
    refine ⟨t, (runCommand_of_decode hi s).trans h, ?_⟩
    simp only [herr, commandError, ne_eq, hload, hindex, Bool.true_eq_false, if_false]

end Sys2Proof.Machine
end

section
/-! Reset and hazards (spec/70_reset_and_hazards.md R254, R255, R263): commands before `LOAD`,
moving a generator to another block, and the idle block. -/

namespace Sys2Proof.Machine

/-! ## Before `LOAD` (R254) -/

/-- Settles O19: the failure shared by every command but `LOAD`. -/
theorem notCreatedBeforeLoad : Obligations.NotCreatedBeforeLoad :=
  fun _ s hi => failsUncreated_of_ne_load hi s

/-! ## The generator of a block

The part of the state that decides what the host learns of later commands, and how each command
moves it. -/

/-- What decides the errors and, with `ROUND_TIES`, the results of commands: `CTR`, `KEY`, the
operands and `VALID`. -/
structure Generator where
  ctr : Word
  key : Word
  opa : Word
  opb : Word
  created : Bool

def State.generator (s : State) : Generator where
  ctr := s.ctr
  key := s.key
  opa := s.opa
  opb := s.opb
  created := s.status.valid

/-- How a command moves the generator: `LOAD` replaces it (R111), a success draws (R83), and a
failed command keeps it (R222). -/
def Generator.after (i : Instr) (g : Generator) : Generator :=
  if i = .load then { g with ctr := g.opa, key := g.opb, created := true }
  else if g.created = true ∧ (i = .index → g.opa ≠ 0) then
    { g with ctr := g.ctr + BitVec.ofNat 64 i.draws }
  else g

/-- The unit value of the next draw (R132, R133). -/
def Generator.unit (F : Format) (g : Generator) : FloatVal :=
  unitOf F (reduceDraw (squares g.ctr g.key))

/-- The bits of component `n` of a vector command, from the draw at `CTR + n` (R180, R181). -/
def Generator.component (F : Format) (g : Generator) (n : Word) : Word :=
  resultF F (compOf F (reduceDraw (squares (g.ctr + n) g.key)))

/-- The results of each command that succeeds; only the integer ranges use `ROUND_TIES` (R152). -/
def Generator.results (ties : RoundTies) (g : Generator) : Instr → List Word
  | .load => []
  | .raw => [squares g.ctr g.key]
  | .unit32 => [resultF32 (g.unit .f32)]
  | .unit64 => [resultF64 (g.unit .f64)]
  | .rangef32 => [resultF32 (rangeOf .f32 (operandF32 g.opa) (operandF32 g.opb) (g.unit .f32))]
  | .rangef64 => [resultF64 (rangeOf .f64 (operandF64 g.opa) (operandF64 g.opb) (g.unit .f64))]
  | .rangei32 =>
    [resultI32 (rangeInt .f32 32 ties (operandI32 g.opa) (operandI32 g.opb) (g.unit .f32))]
  | .rangei64 =>
    [resultI64 (rangeInt .f64 64 ties (operandI64 g.opa) (operandI64 g.opb) (g.unit .f64))]
  | .vec2f32 => [0, 1].map (g.component .f32)
  | .vec3f32 => [0, 1, 2].map (g.component .f32)
  | .vec4f32 => [0, 1, 2, 3].map (g.component .f32)
  | .vec2f64 => [0, 1].map (g.component .f64)
  | .vec3f64 => [0, 1, 2].map (g.component .f64)
  | .vec4f64 => [0, 1, 2, 3].map (g.component .f64)
  | .index => [reduceDraw (squares g.ctr g.key) % g.opa]

theorem results_eq_of_not_rangei {i : Instr} (h32 : i ≠ .rangei32) (h64 : i ≠ .rangei64)
    (ties ties' : RoundTies) (g : Generator) : g.results ties i = g.results ties' i := by
  cases i with
  | rangei32 => exact absurd rfl h32
  | rangei64 => exact absurd rfl h64
  | _ => rfl

/-- The error of a command depends on the generator only. -/
theorem commandError_congr {s s' : State} (h : s.generator = s'.generator) (i : Instr) :
    commandError i s = commandError i s' := by
  have hvalid : s.status.valid = s'.status.valid := congrArg Generator.created h
  have hopa : s.opa = s'.opa := congrArg Generator.opa h
  rw [commandError, commandError, hvalid, hopa]

/-! ## What a command does to the generator, and what it delivers -/

theorem exec_generator {i : Instr} {s t : State} (h : exec i s = .next t) :
    t.generator = s.generator.after i := by
  obtain ⟨rfl, h'⟩ | ⟨hi, hv, h'⟩ | ⟨rfl, hv, hsize, h'⟩ | ⟨hi, hv, hsize, t', h', ht⟩ :=
    exec_cases i s <;> cases h.symm.trans h'
  · rfl
  · simp [State.generator, Generator.after, hi, hv]
  · simp [State.generator, Generator.after, hv, hsize]
  · rw [Generator.after, if_neg hi, if_pos ⟨hv, hsize⟩, State.generator, State.generator,
      succeeds_ctr ht, succeeds_key ht, succeeds_opa ht, succeeds_opb ht, succeeds_status ht,
      Status.succeeded]

/-- No command writes the parameters (R7). -/
theorem exec_params {i : Instr} {s t : State} (h : exec i s = .next t) : t.params = s.params := by
  obtain ⟨-, h'⟩ | ⟨-, -, h'⟩ | ⟨-, -, -, h'⟩ | ⟨-, -, -, t', h', ht⟩ :=
    exec_cases i s <;> cases h.symm.trans h'
  · rfl
  · rfl
  · rfl
  · exact succeeds_params ht

/-- On a created block a command whose check passes delivers the results of the generator: the
result statement of each command, read off its registers. -/
theorem exec_results_created {s : State} (hv : s.status.valid = true) {i : Instr}
    (hsize : i = .index → s.opa ≠ 0) :
    ∃ t, exec i s = .next t ∧ resultsOf i t = s.generator.results s.params.roundTies i :=
  match i with
  | .load => ⟨_, exec_load s, rfl⟩
  | .raw => ⟨_, exec_raw_created hv, rfl⟩
  | .unit32 => ⟨_, unit32Result.1 s hv, rfl⟩
  | .unit64 => ⟨_, unit64Result.1 s hv, rfl⟩
  | .rangef32 => ⟨_, rangeF32Result.1 s hv, rfl⟩
  | .rangef64 => ⟨_, rangeF64Result.1 s hv, rfl⟩
  | .rangei32 => ⟨_, rangeI32Result.1 s hv, rfl⟩
  | .rangei64 => ⟨_, rangeI64Result.1 s hv, rfl⟩
  | .vec2f32 => ⟨_, vectorOp_two hv .f32, rfl⟩
  | .vec3f32 => ⟨_, vectorOp_three hv .f32, rfl⟩
  | .vec4f32 => ⟨_, vectorOp_four hv .f32, rfl⟩
  | .vec2f64 => ⟨_, vectorOp_two hv .f64, rfl⟩
  | .vec3f64 => ⟨_, vectorOp_three hv .f64, rfl⟩
  | .vec4f64 => ⟨_, vectorOp_four hv .f64, rfl⟩
  | .index => ⟨_, exec_index_of_opa_ne_zero hv (hsize rfl), rfl⟩

/-- A command without an error delivers the results of the generator. -/
theorem resultsOf_exec {i : Instr} {s t : State} (h : exec i s = .next t)
    (hnone : commandError i s = none) :
    resultsOf i t = s.generator.results s.params.roundTies i := by
  by_cases hi : i = .load
  · subst hi
    rfl
  · have hv : s.status.valid = true := by
      cases hv : s.status.valid with
      | true => rfl
      | false => simp [commandError, hi, hv] at hnone
    obtain ⟨t', h', hresults⟩ :=
      exec_results_created hv ((commandError_eq_none_iff_of_created hv).1 hnone)
    cases h.symm.trans h'
    exact hresults

/-! ## Equal generators give equal traces -/

/-- What the host learns of one command: its error, and without one the results of the generator. -/
theorem trace_cons {i : Instr} {s t : State} (h : exec i s = .next t) (is : List Instr) :
    trace (i :: is) s =
      (commandError i s,
        if commandError i s = none then s.generator.results s.params.roundTies i else []) ::
      trace is t := by
  have herr : t.status.err = commandError i s := by
    obtain ⟨t', h', herr⟩ := exec_status_err i s
    cases h.symm.trans h'
    exact herr
  simp only [trace, h, herr]
  congr 2
  exact ite_congr rfl (resultsOf_exec h) fun _ => rfl

/-- Two blocks with one generator give one trace; `ROUND_TIES` matters only where a command of the
list rounds to an integer. The generators stay equal, so the commands are taken one by one. -/
theorem trace_congr (cs : List Instr) {s s' : State} (hgen : s.generator = s'.generator)
    (hties : s.params.roundTies = s'.params.roundTies ∨ (.rangei32 ∉ cs ∧ .rangei64 ∉ cs)) :
    trace cs s = trace cs s' := by
  induction cs generalizing s s' with
  | nil => rfl
  | cons i is ih =>
    obtain ⟨t, h, -⟩ := exec_status_err i s
    obtain ⟨t', h', -⟩ := exec_status_err i s'
    have hgen' : t.generator = t'.generator := by
      rw [exec_generator h, exec_generator h', hgen]
    have hresults : s.generator.results s.params.roundTies i =
        s'.generator.results s'.params.roundTies i := by
      obtain hties | ⟨h32, h64⟩ := hties
      · rw [hgen, hties]
      · rw [hgen]
        exact results_eq_of_not_rangei (List.ne_of_not_mem_cons h32).symm
          (List.ne_of_not_mem_cons h64).symm _ _ _
    have htail : trace is t = trace is t' := by
      refine ih hgen' ?_
      rw [exec_params h, exec_params h']
      exact hties.imp_right fun ⟨h32, h64⟩ =>
        ⟨List.not_mem_of_not_mem_cons h32, List.not_mem_of_not_mem_cons h64⟩
    rw [trace_cons h, trace_cons h', commandError_congr hgen, hresults, htail]

/-- Settles O28: `LOAD` leaves the target created with the saved `CTR` and `KEY`, so with operands
written anew its generator is that of the saved block. -/
theorem stateTransplantResumes : Obligations.StateTransplantResumes := by
  refine fun s b hv => ⟨_, exec_load _, rfl, rfl, fun cs x y hties => trace_congr cs ?_ ?_⟩
  · simp only [State.generator, hv]
  · exact hties.imp_left Eq.symm

/-! ## The idle block (R263) -/

/-- A step with no reset, no command executing and no access held or arriving performs nothing. -/
theorem step_idle {s : State} (hreset : s.arriving.reset = false) (hidle : s.executing = 0)
    (hw : s.received.waiting = []) : step s = .next { s.received with response := none } := by
  unfold step cycle
  simp only [hreset, hidle, hw]
  rfl

/-- Settles O53: with nothing arriving, the state taken in is the state but for the input consumed.
-/
theorem idleKeepsEveryRegister : Obligations.IdleKeepsEveryRegister := by
  intro s harriving hwaiting hidle
  have hreceived : s.received = { s with inputs := s.inputs.tail } := by
    simp [State.received, harriving, Cycle.idle]
  rw [step_idle (by rw [harriving]; rfl) hidle (by rw [hreceived]; exact hwaiting), hreceived]

end Sys2Proof.Machine
end

section
/-! The opcode map (spec/30_encoding.md R83): the round trip over all words, and the fifteen words.
-/

namespace Sys2Proof.Machine

/-- Settles O2: the two fields the decoder reads are the whole word, and the opcode map inverts the
opcode column. -/
theorem decodeAgreesWithEncode : Obligations.DecodeAgreesWithEncode :=
  fun _ _ => decode_eq_ok_iff_eq_encode

/-- Settles O1: each word is the encoding of its row. -/
theorem specWordsDecode : Obligations.SpecWordsDecode := by
  simp only [Obligations.SpecWordsDecode, decode_eq_ok_iff_eq_encode]
  decide

end Sys2Proof.Machine
end

section
/-! Sequences of commands (spec/40_core.md R105): two blocks with equal generators and equal
`STATUS` stay so, and what one command does to the state as a whole: its draws, its frame, its
result. -/

namespace Sys2Proof.Machine

/-! ## Equal blocks stay equal (R105) -/

/-- `STATUS` after a command is that of its error, or of a success (R222, R223). -/
theorem exec_status {i : Instr} {s t : State} (h : exec i s = .next t) :
    (∃ e, commandError i s = some e ∧ t.status = s.status.failed e) ∨
    (commandError i s = none ∧
      t.status = { valid := true, sticky := s.status.sticky, err := none }) := by
  obtain ⟨e, he, h'⟩ | ⟨hnone, t', h', ht'⟩ := exec_by_commandError i s <;> cases h.symm.trans h'
  · exact .inl ⟨e, he, rfl⟩
  · exact .inr ⟨hnone, ht'⟩

/-- One command on two blocks with one generator and one `STATUS` leaves them one `STATUS`. -/
theorem exec_status_congr {i : Instr} {s s' t t' : State} (h : exec i s = .next t)
    (h' : exec i s' = .next t') (hgen : s.generator = s'.generator)
    (hstatus : s.status = s'.status) : t.status = t'.status := by
  have herr := commandError_congr hgen i
  obtain ⟨e, he, ht⟩ | ⟨hnone, ht⟩ := exec_status h <;>
    obtain ⟨e', he', ht'⟩ | ⟨hnone', ht'⟩ := exec_status h'
  · rw [he, he', Option.some.injEq] at herr
    rw [ht, ht', herr, hstatus]
  · simp [he, hnone'] at herr
  · simp [hnone, he'] at herr
  · rw [ht, ht', hstatus]

/-- The commands of a list complete on any two blocks, and one generator and one `STATUS` before
them are one after them. -/
theorem runCommands_congr (cs : List Instr) {s s' : State} (hgen : s.generator = s'.generator)
    (hstatus : s.status = s'.status) :
    ∃ t t', runCommands cs s = .next t ∧ runCommands cs s' = .next t' ∧
      t.generator = t'.generator ∧ t.status = t'.status := by
  induction cs generalizing s s' with
  | nil => exact ⟨s, s', rfl, rfl, hgen, hstatus⟩
  | cons i is ih =>
    obtain ⟨t, h, -⟩ := exec_status_err i s
    obtain ⟨t', h', -⟩ := exec_status_err i s'
    rw [runCommands_cons_of_next h, runCommands_cons_of_next h']
    exact ih (by rw [exec_generator h, exec_generator h', hgen])
      (exec_status_congr h h' hgen hstatus)

/-- Settles O27: the generator and `STATUS` are all that the commands and the trace depend on. -/
theorem equalGeneratorsStayEqual : Obligations.EqualGeneratorsStayEqual := by
  intro cs s s' hctr hkey hopa hopb hstatus
  have hgen : s.generator = s'.generator := by
    simp only [State.generator, hctr, hkey, hopa, hopb, hstatus]
  obtain ⟨t, t', h, h', htgen, htstatus⟩ := runCommands_congr cs hgen hstatus
  exact ⟨trace_congr cs hgen, t, t', h, h', congrArg Generator.ctr htgen,
    congrArg Generator.key htgen, htstatus⟩

/-! ## Draws and frame (R23 to R26, R83) -/

/-- A command that leaves `ERR` clear is `LOAD`, or has passed its checks and succeeded. -/
theorem succeeds_of_err_eq_none {i : Instr} {s t : State} (h : exec i s = .next t)
    (herr : t.status.err = none) :
    i = .load ∨ (s.status.valid = true ∧ (i = .index → s.opa ≠ 0) ∧ Succeeds i s t) := by
  obtain ⟨hload, -⟩ | ⟨-, -, h'⟩ | ⟨-, -, -, h'⟩ | ⟨-, hv, hsize, t', h', ht⟩ := exec_cases i s
  · exact .inl hload
  · cases h.symm.trans h'
    simp at herr
  · cases h.symm.trans h'
    simp at herr
  · cases h.symm.trans h'
    exact .inr ⟨hv, hsize, ht⟩

/-- Settles O23: of the commands but `LOAD` only a success leaves `ERR` clear, and it draws. -/
theorem counterAdvancesByDraws : Obligations.CounterAdvancesByDraws := by
  intro i s t h herr hi
  obtain hload | ⟨-, -, ht⟩ := succeeds_of_err_eq_none h herr
  · exact absurd hload hi
  · exact succeeds_ctr ht

/-- Settles O24: `LOAD` and an error write no operand, result or bus field, and a success writes the
fields `Succeeds` lists. -/
theorem commandFrame : Obligations.CommandFrame := by
  intro i s t h
  obtain ⟨rfl, h'⟩ | ⟨-, -, h'⟩ | ⟨-, -, -, h'⟩ | ⟨-, -, -, t', h', ht⟩ :=
    exec_cases i s <;> cases h.symm.trans h'
  · simp
  · simp
  · simp
  · have ⟨_, hr0, hr1, hr2, hr3⟩ := ht
    exact ⟨succeeds_opa ht, succeeds_opb ht, succeeds_cmd ht, fun _ => succeeds_key ht, hr0, hr1,
      hr2, hr3, succeeds_executing ht, succeeds_waiting ht, succeeds_inputs ht,
      succeeds_response ht, succeeds_params ht, succeeds_freeIndex ht⟩

/-! ## The reduction and `INDEX` (R131, R214) -/

/-- Settles O6: a raw draw has 32 bits, so only 2^32 - 1 is not below the modulus. -/
theorem reductionChangesOneRawDraw : Obligations.ReductionChangesOneRawDraw := by
  intro c k
  have hlt := squares_lt c k
  have hmodulus : (4294967295 : Word).toNat = 4294967295 := rfl
  refine ⟨fun hne => BitVec.eq_of_toNat_eq ?_, fun heq => ?_, reduceDraw_lt _⟩
  · have hne' : (squares c k).toNat ≠ 4294967295 := fun h => hne (BitVec.eq_of_toNat_eq h)
    rw [reduceDraw, BitVec.toNat_umod, hmodulus, Nat.mod_eq_of_lt (by omega)]
  · rw [heq]
    decide

/-- Settles O42: a success is on a nonzero `OPA`, and the remainder modulo `OPA` is below `OPA` and
not above the scaled value. -/
theorem indexWithinSize : Obligations.IndexWithinSize := by
  intro s t h herr
  obtain hi | ⟨hv, hsize, -⟩ := succeeds_of_err_eq_none h herr
  · cases hi
  · cases h.symm.trans (exec_index_of_opa_ne_zero hv (hsize rfl))
    have hscaled := reduceDraw_lt (squares s.ctr s.key)
    have hpos : 0 < s.opa.toNat := Nat.pos_of_ne_zero fun h0 => hsize rfl (BitVec.eq_of_toNat_eq h0)
    have hle := Nat.mod_le (reduceDraw (squares s.ctr s.key)).toNat s.opa.toNat
    refine ⟨?_, ?_, fun hlarge => BitVec.eq_of_toNat_eq ?_⟩
    · rw [BitVec.toNat_umod]
      exact Nat.mod_lt _ hpos
    · rw [BitVec.toNat_umod]
      omega
    · rw [BitVec.toNat_umod, Nat.mod_eq_of_lt (by omega)]

/-! ## The key 0 (R106) -/

/-- Settles O5: with key 0 the first product is 0, and every later word of the mixing function is a
sum of products of zeros. -/
theorem zeroKeyDrawsZero : Obligations.ZeroKeyDrawsZero := by
  intro c
  have hrot : rot32 0 = 0 := rfl
  simp only [squares, mul_zero, add_zero, hrot]
  rfl

end Sys2Proof.Machine
end

section
/-! The bus port and the invariant (spec/10_state.md R28, spec/20_memory.md R50 to R66,
spec/70_reset_and_hazards.md R250 to R263): what one step does, from any state. -/

namespace Sys2Proof.Machine

/-! ## The `STATUS` word (R28) -/

/-- The fields of the packed word, from bit 0 up, end before bits 1, 2, 3, 4 and 8. -/
theorem statusWord_getLsbD (st : Status) (k : Nat) : (statusWord st).getLsbD k =
    ((k == 0 && st.valid) || (k == 2 && st.sticky) ||
      (decide (4 ≤ k ∧ k < 8) && (errCode st.err).getLsbD (k - 4))) := by
  simp only [statusWord, BitVec.getLsbD_append, BitVec.getLsbD_ofBool]
  match k with
  | 0 | 1 | 2 | 3 => simp
  | n + 4 =>
    have hfield : n + 4 < 8 ↔ n < 4 := by omega
    by_cases hn : n < 4 <;> simp [hfield, hn]

/-- Bits 7:4 of the packed word are the error's code. -/
theorem statusWord_code (st : Status) : (statusWord st).extractLsb' 4 4 = errCode st.err := by
  apply BitVec.eq_of_getLsbD_eq
  intro k hk
  have hfield : 4 + k < 8 := by omega
  have h2 : 4 + k ≠ 2 := by omega
  simp [statusWord_getLsbD, hk, hfield, h2]

/-- Settles O43: the code written out in the statement is `errCode` of each error. -/
theorem statusWordLayout : Obligations.StatusWordLayout := by
  intro s k
  rw [readReg, statusWord_code, statusWord_getLsbD]
  cases s.status.err with
  | none => exact ⟨rfl, rfl⟩
  | some e => cases e <;> exact ⟨rfl, rfl⟩

/-! ## The running command (R60, R262) -/

/-- A step of a running command without a reset. -/
theorem step_busy {s : State} (hreset : s.arriving.reset = false) (hbusy : s.executing ≠ 0) :
    step s = .next (tick s.received) := by
  unfold step cycle
  simp only [hreset, ne_eq, hbusy, not_false_eq_true, if_true]
  rfl

/-- Settles O51: a step of a running command is one `tick` after the arrival is taken in. -/
theorem accessesHeldWhileExecuting : Obligations.AccessesHeldWhileExecuting := by
  intro s hreset hbusy
  have hlast : s.executing - 1 = 0 ↔ s.executing = 1 := by omega
  rw [step_busy hreset hbusy]
  simp only [tick, State.received, hlast]

theorem runSteps_succ_of_next {s t : State} (h : step s = .next t) (n : Nat) :
    runSteps (n + 1) s = runSteps n t := by
  simp only [runSteps, h]

/-- A step takes the first of the inputs, if there is one. -/
theorem arriving_accesses_append (s : State) (n : Nat) :
    s.arriving.access.toList ++ (s.inputs.tail.take n).flatMap (fun c => c.access.toList) =
      (s.inputs.take (n + 1)).flatMap fun c => c.access.toList := by
  cases hinputs : s.inputs with
  | nil => simp [State.arriving, hinputs, Cycle.idle]
  | cons c cs => simp [State.arriving, hinputs]

/-- With no reset among the next `n + 1` inputs, the step has none and the next `n` steps have none.
-/
theorem no_reset_of_take_succ {s : State} {n : Nat}
    (h : ∀ c ∈ s.inputs.take (n + 1), c.reset = false) :
    s.arriving.reset = false ∧ ∀ c ∈ s.inputs.tail.take n, c.reset = false := by
  cases hinputs : s.inputs with
  | nil => simp [State.arriving, hinputs, Cycle.idle]
  | cons c cs => simpa [State.arriving, hinputs] using h

/-- Settles O52, by induction on the steps left: the first is `accessesHeldWhileExecuting`, and the
access it takes in stands before those of the later steps. -/
theorem holdEndsWithinLatency : Obligations.HoldEndsWithinLatency := by
  intro s
  generalize hn : s.executing = n
  induction n generalizing s with
  | zero =>
    refine fun _ => ⟨s, rfl, ?_⟩
    simp only [List.take_zero, List.flatMap_nil, List.append_nil, List.drop_zero, if_true]
    rw [← hn]
  | succ n ih =>
    intro hinputs
    obtain ⟨hreset, hlater⟩ := no_reset_of_take_succ hinputs
    have hstep := step_busy hreset (by omega)
    obtain ⟨t, hrun, ht⟩ := ih (tick s.received) (by simp [hn]) hlater
    refine ⟨t, (runSteps_succ_of_next hstep n).trans hrun, ht.trans ?_⟩
    simp [hn, arriving_accesses_append]

/-! ## Bus errors (R54) -/

/-- A step whose oldest waiting access selects no register stops with the fault of the selection. -/
theorem step_fault {s : State} {a : Access} {rest : List Access} {f : Fault}
    (hreset : s.arriving.reset = false) (hidle : s.executing = 0)
    (hw : s.received.waiting = a :: rest) (hf : selectReg s.params.base a = .error f) :
    step s = .fault f := by
  rw [step_perform hreset hidle hw]
  simp only [perform, received_params, hf]

/-- An access of another width, misaligned or past the last register is not well-formed. -/
theorem wellFormed_eq_false {base : Nat} {a : Access}
    (h : a.bytes ≠ 8 ∨ (a.addr - base) % 8 ≠ 0 ∨ 0x58 ≤ a.addr - base) :
    a.wellFormed base = false := by
  refine Bool.eq_false_iff.2 fun hwf => ?_
  simp only [Access.wellFormed, Bool.and_eq_true, beq_iff_eq, decide_eq_true_eq] at hwf
  omega

/-- Settles O46: the access selects no register, so the step stops, and `goOn` drops it. -/
theorem busErrorChangesNothing : Obligations.BusErrorChangesNothing := by
  intro s a rest hreset hidle hw hin hmalformed
  obtain ⟨-, herror⟩ := selectionMatchesTheMap s.params.base a
  have hstep := step_fault hreset hidle hw (herror hin (wellFormed_eq_false hmalformed))
  refine ⟨hstep, ?_⟩
  simp only [goOn, hstep, hw, List.tail_cons]
  rfl

/-! ## A write of `CMD` (R27, R57, R81) -/

/-- What a write of `CMD` can do once the word is stored: raise `IllegalCommand`, or run the command
the word encodes. -/
theorem runCommand_next {v : Word} {s u : State} (h : runCommand v s = .next u) :
    u = raise .illegalCommand { s with cmd := v } ∨
    ∃ i, v = encode i ∧ exec i { s with cmd := v } = .next u := by
  cases hwf : wordWellFormed v with
  | false =>
    cases h.symm.trans (runCommand_of_illegal hwf s)
    exact .inl rfl
  | true =>
    obtain ⟨i, hi⟩ := exists_decode_iff.2 hwf
    exact .inr ⟨i, decode_eq_ok_iff_eq_encode.1 hi, (runCommand_of_decode hi s).symm.trans h⟩

/-- A write of `CMD` runs the word and holds the bus. -/
theorem perform_cmdWrite {v : Word} {s u : State} (h : runCommand v s = .next u) :
    perform (cmdWrite s.params v) s = .next (occupy v u) := by
  simp only [perform, cmdWrite, selectReg_offset, startCommand, h, if_true]

/-- Settles O49: the step is the write of `CMD`, which runs the word or raises `IllegalCommand`. -/
theorem stepRunsTheDecodedCommand : Obligations.StepRunsTheDecodedCommand := by
  intro s v rest hreset hidle hw stored left answer
  have hstep := step_perform hreset hidle hw
  constructor
  · intro i hi
    obtain ⟨t, ht, -⟩ := exec_status_err i stored
    refine ⟨t, ht, ?_⟩
    have hrun : runCommand v { s.received with waiting := rest } = .next t :=
      (runCommand_of_decode hi _).trans ht
    rw [hstep]
    refine (perform_cmdWrite hrun).trans ?_
    rw [occupy, exec_params ht]
  · intro hillegal
    have hwf : wordWellFormed v = false :=
      Bool.eq_false_iff.2 fun hwf => by
        obtain ⟨i, hi⟩ := exists_decode_iff.2 hwf
        exact hillegal i hi
    exact hstep.trans (perform_cmdWrite (runCommand_of_illegal hwf _))

/-- Settles O50: the placed word is the oldest waiting access of an idle block, with no reset. -/
theorem placedWordRunsNext : Obligations.PlacedWordRunsNext := by
  intro s i
  have hword : BitVec.ofNat 64 ((encode i).toNat % 2 ^ 64) = encode i := by
    rw [Nat.mod_eq_of_lt (encode i).isLt, BitVec.ofNat_toNat, BitVec.setWidth_eq]
  have hw : (s.withFetchWord 64 (encode i).toNat).received.waiting =
      cmdWrite s.params (encode i) :: s.waiting := by
    simp only [received_waiting, State.withFetchWord, hword]
    exact List.append_nil _
  obtain ⟨t, ht, -⟩ := exec_status_err i { s with executing := 0, cmd := encode i }
  have hrun : runCommand (encode i) { s with executing := 0 } = .next t :=
    (runCommand_of_decode (decode_eq_ok_iff_eq_encode.2 rfl) _).trans ht
  exact ⟨t, ht, (step_perform rfl rfl hw).trans (perform_cmdWrite hrun)⟩

/-! ## Everything one step does -/

/-- A step that is neither a reset nor a write of `CMD` keeps the generator, the results, `VALID`,
`ERR`, `CMD` and the parameters, and no command begins. -/
structure KeepsGenerator (s t : State) : Prop where
  ctr : t.ctr = s.ctr
  key : t.key = s.key
  r0 : t.r0 = s.r0
  r1 : t.r1 = s.r1
  r2 : t.r2 = s.r2
  r3 : t.r3 = s.r3
  valid : t.status.valid = s.status.valid
  err : t.status.err = s.status.err
  cmd : t.cmd = s.cmd
  params : t.params = s.params
  executing : t.executing ≤ s.executing

/-- Every step is a reset, or keeps the generator, or is a write of `CMD` at an idle block: `u` is
the state in which the word has been run. -/
theorem step_cases {s t : State} (h : step s = .next t) :
    (s.arriving.reset = true ∧
      t = resetEvent s.arriving.access { s with inputs := s.inputs.tail }) ∨
    (s.arriving.reset = false ∧ KeepsGenerator s t) ∨
    (s.arriving.reset = false ∧ s.executing = 0 ∧ ∃ v rest u,
      s.received.waiting = cmdWrite s.params v :: rest ∧
      runCommand v { s.received with waiting := rest } = .next u ∧ t = occupy v u) := by
  obtain hreset | ⟨hreset, -, rfl⟩ | ⟨hreset, -, -, rfl⟩ | ⟨hreset, hidle, a, rest, hw, hperform⟩ :=
    step_next h
  · exact .inl hreset
  · exact .inr (.inl ⟨hreset, rfl, rfl, rfl, rfl, rfl, rfl, rfl, rfl, rfl, rfl, Nat.sub_le _ _⟩)
  · exact .inr (.inl ⟨hreset, rfl, rfl, rfl, rfl, rfl, rfl, rfl, rfl, rfl, rfl, Nat.le_refl _⟩)
  · obtain ⟨r, -, rfl⟩ | ⟨r, v, hr, -, rfl⟩ | ⟨v, u, rfl, hrun, rfl⟩ := perform_next hperform
    · exact .inr (.inl ⟨hreset, rfl, rfl, rfl, rfl, rfl, rfl, rfl, rfl, rfl, rfl, Nat.le_refl _⟩)
    · refine .inr (.inl ⟨hreset, ?_⟩)
      rw [writeReg_eq_of_ne_cmd hr]
      refine ⟨rfl, rfl, rfl, rfl, rfl, rfl, ?_, ?_, rfl, rfl, Nat.le_refl _⟩ <;>
        by_cases hstatus : r = .status <;> simp [hstatus]
    · exact .inr (.inr ⟨hreset, hidle, v, rest, u, hw, hrun, rfl⟩)

/-! ## Reset (R250, R251) -/

/-- The step in which the reset input is asserted is the reset event. -/
theorem step_reset {s : State} (hreset : s.arriving.reset = true) :
    step s = .next (resetEvent s.arriving.access { s with inputs := s.inputs.tail }) := by
  unfold step cycle
  simp only [hreset, if_true]

/-- A command never takes `VALID` from 1 to 0. -/
theorem runCommand_keeps_valid {v : Word} {s u : State} (h : runCommand v s = .next u)
    (hv : s.status.valid = true) : u.status.valid = true := by
  obtain rfl | ⟨i, -, hi⟩ := runCommand_next h
  · exact hv
  · obtain ⟨e, -, hstatus⟩ | ⟨-, hstatus⟩ := exec_status hi <;> rw [hstatus]
    exact hv

theorem statusWord_clear : statusWord { valid := false, sticky := false, err := none } = 0 := by
  decide

/-- Settles O54: the reset event writes the reset state's registers, and a step without reset keeps
`VALID` or runs a word, which never clears it. -/
theorem resetTakesEveryRegister : Obligations.ResetTakesEveryRegister := by
  refine ⟨fun s hreset => ⟨_, step_reset hreset, ?_, rfl, rfl, rfl, rfl, rfl, ?_⟩, ?_⟩
  · intro r
    cases r with
    | status => exact statusWord_clear
    | _ => rfl
  · intro hwaiting haccess hidle
    simp [resetEvent, hwaiting, haccess, hidle]
  · intro s t h hv hcleared
    obtain ⟨hreset, -⟩ | ⟨-, hkeeps⟩ | ⟨-, -, v, rest, u, -, hrun, rfl⟩ := step_cases h
    · exact hreset
    · simp [hkeeps.valid, hv] at hcleared
    · simp [runCommand_keeps_valid hrun hv] at hcleared

/-! ## What changes the generator (R22, R23) -/

theorem runCommand_params {v : Word} {s u : State} (h : runCommand v s = .next u) :
    u.params = s.params := by
  obtain rfl | ⟨i, -, hi⟩ := runCommand_next h
  · rfl
  · exact (exec_params hi).trans rfl

theorem runCommand_cmd {v : Word} {s u : State} (h : runCommand v s = .next u) : u.cmd = v := by
  obtain rfl | ⟨i, -, hi⟩ := runCommand_next h
  · rfl
  · obtain ⟨-, -, hcmd, -⟩ := commandFrame i _ u hi
    exact hcmd

/-- Only `LOAD`'s word changes `KEY`, which takes `OPB`. -/
theorem runCommand_key {v : Word} {s u : State} (h : runCommand v s = .next u) :
    u.key = s.key ∨ (v = encode .load ∧ u.key = s.opb) := by
  obtain rfl | ⟨i, rfl, hi⟩ := runCommand_next h
  · exact .inl rfl
  · by_cases hload : i = .load
    · subst hload
      cases hi
      exact .inr ⟨rfl, rfl⟩
    · obtain ⟨-, -, -, hkey, -⟩ := commandFrame i _ u hi
      exact .inl (hkey hload)

/-- Settles O55: without a reset only the step that writes `CMD` does not keep the generator. -/
theorem generatorChangesOnlyByCommandOrReset :
    Obligations.GeneratorChangesOnlyByCommandOrReset := by
  intro s t h
  obtain ⟨hreset, rfl⟩ | ⟨-, hkeeps⟩ | ⟨-, hidle, v, rest, u, hw, hrun, rfl⟩ := step_cases h
  · exact ⟨rfl, fun hno => by simp [hreset] at hno⟩
  · exact ⟨hkeeps.params, fun _ =>
      ⟨fun hctr => absurd hkeeps.ctr hctr, fun hkey => absurd hkeeps.key hkey⟩⟩
  · refine ⟨(occupy_params u v).trans ((runCommand_params hrun).trans rfl), fun _ =>
      ⟨fun _ => ⟨hidle, v, rest, hw, (occupy_cmd u v).trans (runCommand_cmd hrun)⟩, fun hkey => ?_⟩⟩
    obtain hsame | ⟨rfl, hopb⟩ := runCommand_key hrun
    · exact absurd hsame hkey
    · exact ⟨hidle, hopb, rest, hw⟩

/-! ## The invariant (R224, R252, R254, R262) -/

/-- The clauses of the invariant that do not speak of time: the ones a command has to keep. -/
structure UntouchedOrCreated (s : State) : Prop where
  untouched : s.status.valid = false →
    s.ctr = 0 ∧ s.key = 0 ∧ s.r0 = 0 ∧ s.r1 = 0 ∧ s.r2 = 0 ∧ s.r3 = 0
  domain : s.status.err = some .domainError → s.status.valid = true
  notCreated : s.status.err = some .notCreated → s.status.valid = false

/-- A created block without an error meets the clauses. -/
theorem untouchedOrCreated_of_created {s : State} (hv : s.status.valid = true)
    (herr : s.status.err ≠ some .notCreated) : UntouchedOrCreated s where
  untouched := fun hno => by simp [hv] at hno
  domain := fun _ => hv
  notCreated := fun hno => absurd hno herr

/-- A command keeps the clauses: `LOAD` and a success leave a created block, `DomainError` is raised
on one, and `NotCreated` on one that is not. -/
theorem exec_keeps_untouchedOrCreated {i : Instr} {s t : State} (h : exec i s = .next t)
    (hs : UntouchedOrCreated s) : UntouchedOrCreated t := by
  obtain ⟨-, h'⟩ | ⟨-, hv, h'⟩ | ⟨-, hv, -, h'⟩ | ⟨-, hv, -, t', h', ht⟩ :=
    exec_cases i s <;> cases h.symm.trans h'
  · exact untouchedOrCreated_of_created rfl (by simp)
  · exact ⟨hs.untouched, by simp, fun _ => hv⟩
  · exact untouchedOrCreated_of_created hv (by simp)
  · have hstatus := succeeds_status ht
    exact untouchedOrCreated_of_created (by rw [hstatus]; exact hv) (by simp [hstatus])

/-- A write of `CMD` keeps the clauses: an illegal word raises an error of any block. -/
theorem runCommand_keeps_untouchedOrCreated {v : Word} {s u : State}
    (h : runCommand v s = .next u) (hs : UntouchedOrCreated s) : UntouchedOrCreated u := by
  obtain rfl | ⟨i, -, hi⟩ := runCommand_next h
  · exact ⟨hs.untouched, by simp, by simp⟩
  · exact exec_keeps_untouchedOrCreated hi ⟨hs.untouched, hs.domain, hs.notCreated⟩

/-- Every latency is at least one step (R262). -/
theorem latency_pos (p : Params) (opc : BitVec 8) : 0 < p.latency opc := Nat.succ_pos _

/-- The reset registers meet the invariant, whatever the parameters. -/
theorem inv_of_reset (arriving : Option Access) (s : State) : Inv (resetEvent arriving s) where
  untouched := fun _ => ⟨rfl, rfl, rfl, rfl, rfl, rfl⟩
  domain := by simp [resetEvent, State.reset]
  notCreated := fun _ => rfl
  latency := latency_pos _ _

/-- Settles O56: the reset state. -/
theorem invariantAtReset : Obligations.InvariantAtReset :=
  ⟨⟨fun _ => ⟨rfl, rfl, rfl, rfl, rfl, rfl⟩, by simp [State.reset], fun _ => rfl,
    latency_pos _ _⟩, rfl⟩

/-- Settles O57: a reset gives the reset registers, a quiet step keeps every field the invariant
reads, and a write of `CMD` keeps the clauses of the generator and starts the hold of the word it
stores. -/
theorem stepKeepsInvariant : Obligations.StepKeepsInvariant := by
  intro s t hs h
  obtain ⟨-, rfl⟩ | ⟨-, hk⟩ | ⟨-, -, v, rest, u, -, hrun, rfl⟩ := step_cases h
  · exact inv_of_reset _ _
  · constructor
    · rw [hk.valid, hk.ctr, hk.key, hk.r0, hk.r1, hk.r2, hk.r3]
      exact hs.untouched
    · rw [hk.err, hk.valid]
      exact hs.domain
    · rw [hk.err, hk.valid]
      exact hs.notCreated
    · rw [hk.params, hk.cmd]
      exact Nat.lt_of_le_of_lt hk.executing hs.latency
  · have hu : UntouchedOrCreated u :=
      runCommand_keeps_untouchedOrCreated hrun ⟨hs.untouched, hs.domain, hs.notCreated⟩
    refine ⟨hu.untouched, hu.domain, hu.notCreated, ?_⟩
    rw [occupy_cmd, runCommand_cmd hrun]
    exact Nat.sub_lt (latency_pos _ _) Nat.one_pos

/-! ## Well-formed accesses never fault (R66) -/

/-- A well-formed access selects a register. -/
theorem selectReg_of_wellFormed {base : Nat} {a : Access} (h : a.wellFormed base = true) :
    ∃ r, selectReg base a = .ok r := by
  have hwf := h
  simp only [Access.wellFormed, Access.inWindow, Bool.and_eq_true, decide_eq_true_eq,
    beq_iff_eq] at hwf
  obtain ⟨r, hr⟩ := regAt_isSome (off := a.addr - base) (by omega) (by omega)
  have haddr : a.addr = base + r.offset := by
    have := regAt_eq_some hr
    omega
  exact ⟨r, selectReg_eq_ok_iff.2 ⟨h, haddr⟩⟩

/-- A write of any word to `CMD` completes, and leaves the bus port as it is. -/
theorem runCommand_completes (v : Word) (s : State) :
    ∃ u, runCommand v s = .next u ∧ u.params = s.params ∧ u.waiting = s.waiting ∧
      u.inputs = s.inputs := by
  cases hwf : wordWellFormed v with
  | false => exact ⟨_, runCommand_of_illegal hwf s, rfl, rfl, rfl⟩
  | true =>
    obtain ⟨i, hi⟩ := exists_decode_iff.2 hwf
    obtain ⟨u, hu, -⟩ := exec_status_err i { s with cmd := v }
    obtain ⟨-, -, -, -, -, -, -, -, -, hwaiting, hinputs, -, hparams, -⟩ := commandFrame i _ u hu
    exact ⟨u, (runCommand_of_decode hi s).trans hu, hparams, hwaiting, hinputs⟩

/-- A well-formed access completes, and leaves the accesses that wait and those to come. -/
theorem perform_of_wellFormed {a : Access} {s : State} (h : a.wellFormed s.params.base = true) :
    ∃ t, perform a s = .next t ∧ t.params = s.params ∧ t.waiting = s.waiting ∧
      t.inputs = s.inputs := by
  obtain ⟨r, hr⟩ := selectReg_of_wellFormed h
  obtain ⟨-, haddr⟩ := selectReg_eq_ok_iff.1 hr
  obtain ⟨addr, bytes, kind⟩ := a
  have hbytes := bytes_of_wellFormed h
  subst haddr hbytes
  cases kind with
  | read => exact ⟨_, perform_read r s, rfl, rfl, rfl⟩
  | write v =>
    by_cases hcmd : r = .cmd
    · subst hcmd
      obtain ⟨u, hu, hport⟩ := runCommand_completes v s
      exact ⟨_, perform_cmdWrite hu, hport⟩
    · refine ⟨_, perform_write_of_ne_cmd hcmd v s, ?_⟩
      rw [writeReg_eq_of_ne_cmd hcmd]
      exact ⟨rfl, rfl, rfl⟩

/-- Taking in what arrives keeps the accesses well-formed. -/
theorem accessesOk_received {s : State} (hs : accessesOk s) : accessesOk s.received := by
  obtain ⟨hwaiting, hinputs⟩ := hs
  constructor
  · intro a ha
    rw [received_waiting, List.mem_append, Option.mem_toList] at ha
    obtain ha | ha := ha
    · exact hwaiting a ha
    · cases hi : s.inputs with
      | nil => simp [State.arriving, hi, Cycle.idle] at ha
      | cons c cs =>
        have harriving : s.arriving = c := by simp [State.arriving, hi]
        exact hinputs c (by simp [hi]) a (harriving ▸ ha)
  · exact fun c hc => hinputs c (List.mem_of_mem_tail hc)

/-- Settles O58: of the things a step can do only an access could stop it, and a well-formed one
does not; what waits or is to come after a step was so before it. -/
theorem wellFormedAccessesNeverFault : Obligations.WellFormedAccessesNeverFault := by
  intro s hs
  obtain ⟨hwaiting, hinputs⟩ := accessesOk_received hs
  by_cases hreset : s.arriving.reset = true
  · exact ⟨_, step_reset hreset, fun a ha => (List.not_mem_nil ha).elim, hinputs⟩
  have hreset : s.arriving.reset = false := by simpa using hreset
  by_cases hidle : s.executing = 0
  case neg => exact ⟨_, step_busy hreset hidle, hwaiting, hinputs⟩
  cases hw : s.received.waiting with
  | nil => exact ⟨_, step_idle hreset hidle hw, hwaiting, hinputs⟩
  | cons a rest =>
    rw [hw] at hwaiting
    obtain ⟨t, ht, hparams, htwaiting, htinputs⟩ :=
      perform_of_wellFormed (s := { s.received with waiting := rest })
        (hwaiting a List.mem_cons_self)
    refine ⟨t, (step_perform hreset hidle hw).trans ht, ?_⟩
    rw [accessesOk, hparams, htwaiting, htinputs]
    exact ⟨fun b hb => hwaiting b (List.mem_cons_of_mem a hb), hinputs⟩

end Sys2Proof.Machine
end

section
/-! The rounding of `Machine/Float.lean` (R11, R147): to the nearest value of the format, ties to
the even significand, and to infinity from half a unit above the largest finite value on. -/

namespace Sys2Proof.Machine

/-! ## Distance from an exact quotient -/

/-- How far `R` is from the exact quotient `num / den`, counted in `1 / den`. -/
def unitsApart (num den R : Nat) : Nat := ((num : Int) - (R * den : Nat)).natAbs

/-- Between a value and an exact quotient above it, closer is larger. -/
theorem unitsApart_lt {num den R B : Nat} (hd : 0 < den) (hRB : R < B) (hB : B * den ≤ num) :
    unitsApart num den B < unitsApart num den R := by
  have hlt : R * den < B * den := Nat.mul_lt_mul_of_pos_right hRB hd
  unfold unitsApart
  omega

/-- No integer is nearer to a quotient than its rounding, and another one as near is as near from
the other side: the quotient is halfway between the two. -/
theorem roundQuot_nearest (ties : RoundTies) {num den : Nat} (hd : 0 < den) (r : Nat) :
    unitsApart num den (roundQuot ties num den) ≤ unitsApart num den r ∧
    (unitsApart num den (roundQuot ties num den) = unitsApart num den r →
      r ≠ roundQuot ties num den → 2 * (num % den) = den) := by
  obtain ⟨hupper, hlower⟩ := roundQuot_bounds ties num den hd
  have hhalf := halfway_of_roundQuot_bound_attained (ties := ties) (num := num) hd
  unfold unitsApart
  generalize roundQuot ties num den = q at *
  obtain hrq | rfl | hqr := lt_trichotomy r q
  · have hgap : (r + 1) * den ≤ q * den := Nat.mul_le_mul_right den hrq
    rw [Nat.add_mul, Nat.one_mul] at hgap
    exact ⟨by omega, fun _ _ => hhalf (by omega)⟩
  · exact ⟨le_refl _, fun _ hne => absurd rfl hne⟩
  · have hgap : (q + 1) * den ≤ r * den := Nat.mul_le_mul_right den hqr
    rw [Nat.add_mul, Nat.one_mul] at hgap
    exact ⟨by omega, fun _ _ => hhalf (by omega)⟩

/-! ## The nearest value of the format -/

/-- The significand that `roundTo` gives, before it is shifted back. -/
def roundSig (F : Format) (num den : Nat) : Nat :=
  roundQuot .even num (den * 2 ^ roundShift F num den)

theorem roundMag_eq (F : Format) (num den : Nat) :
    roundMag F num den = roundSig F num den * 2 ^ roundShift F num den := rfl

theorem roundSig_le (F : Format) {num den : Nat} (hd : 0 < den) :
    roundSig F num den ≤ 2 ^ (F.mantBits + 1) := by
  refine roundQuot_le _ (Nat.mul_pos hd (Nat.two_pow_pos _)) ?_
  have hhigh := roundShift_high F (num := num) hd
  rw [Nat.pow_add, Nat.mul_assoc, Nat.mul_comm (2 ^ roundShift F num den)] at hhigh
  exact hhigh.le

/-- Above the subnormal range the significand is full. -/
theorem le_roundSig {F : Format} {num den : Nat} (hd : 0 < den) (h : 0 < roundShift F num den) :
    2 ^ F.mantBits ≤ roundSig F num den := by
  refine le_roundQuot _ (Nat.mul_pos hd (Nat.two_pow_pos _)) ?_
  have hlow := roundShift_low hd h
  rwa [Nat.pow_add, Nat.mul_assoc, Nat.mul_comm (2 ^ roundShift F num den)] at hlow

theorem unitsApart_shift (num den r sh : Nat) :
    unitsApart num den (r * 2 ^ sh) = unitsApart num (den * 2 ^ sh) r := by
  rw [unitsApart, unitsApart, Nat.mul_assoc, Nat.mul_comm (2 ^ sh)]

/-- A value of the format that is no multiple of the last significand bit lies below the smallest
full significand, which the exact quotient does not. -/
theorem lt_of_not_multiple {F : Format} {num den R : Nat} (hR : F.Representable R)
    (h : ∀ r, R ≠ r * 2 ^ roundShift F num den) :
    0 < roundShift F num den ∧ R < 2 ^ (F.mantBits + roundShift F num den) := by
  obtain ⟨-, m, k, hm, rfl⟩ := hR
  constructor
  · by_contra hzero
    exact h (m * 2 ^ k) (by simp [Nat.eq_zero_of_not_pos hzero])
  · by_contra hlarge
    obtain ⟨r, hr⟩ := multiple_of_large hm (Nat.le_of_not_lt hlarge)
    exact h r hr

/-- No value of the format is nearer to the exact quotient than the rounded magnitude; another one
is as near only where the quotient is halfway between two significands. -/
theorem roundMag_nearest {F : Format} {num den R : Nat} (hd : 0 < den) (hR : F.Representable R) :
    unitsApart num den (roundMag F num den) ≤ unitsApart num den R ∧
    (unitsApart num den (roundMag F num den) = unitsApart num den R → R ≠ roundMag F num den →
      2 * (num % (den * 2 ^ roundShift F num den)) = den * 2 ^ roundShift F num den) := by
  have hD : 0 < den * 2 ^ roundShift F num den := Nat.mul_pos hd (Nat.two_pow_pos _)
  have hnearest := roundQuot_nearest .even (num := num) hD
  by_cases hmultiple : ∃ r, R = r * 2 ^ roundShift F num den
  · obtain ⟨r, rfl⟩ := hmultiple
    obtain ⟨hle, hhalf⟩ := hnearest r
    rw [roundMag_eq, unitsApart_shift, unitsApart_shift]
    exact ⟨hle, fun heq hne => hhalf heq fun hr => hne (by rw [hr, roundSig])⟩
  · obtain ⟨hpos, hlt⟩ := lt_of_not_multiple hR (not_exists.1 hmultiple)
    have hfull := unitsApart_lt hd hlt (roundShift_low hd hpos)
    obtain ⟨hle, -⟩ := hnearest (2 ^ F.mantBits)
    rw [Nat.pow_add, unitsApart_shift] at hfull
    rw [roundMag_eq, unitsApart_shift]
    have hlt := Nat.lt_of_le_of_lt hle hfull
    exact ⟨hlt.le, fun heq => absurd heq hlt.ne⟩

/-- The exponent at which a magnitude keeps its significand: that of a full significand, or 0. -/
theorem log2_sub_mantBits {F : Format} {q sh : Nat} (hq : q < 2 ^ (F.mantBits + 1))
    (hfull : sh = 0 ∨ 2 ^ F.mantBits ≤ q) : Nat.log2 (q * 2 ^ sh) - F.mantBits = sh := by
  obtain rfl | hfull := hfull
  · obtain rfl | hne := Nat.eq_zero_or_pos q
    · simp
    · have := (Nat.log2_lt hne.ne').2 hq
      simp only [Nat.pow_zero, Nat.mul_one]
      omega
  · have hpos : 0 < q := Nat.lt_of_lt_of_le (Nat.two_pow_pos _) hfull
    have hlog : Nat.log2 (q * 2 ^ sh) = F.mantBits + sh := by
      refine (Nat.log2_eq_iff (Nat.mul_pos hpos (Nat.two_pow_pos _)).ne').2 ⟨?_, ?_⟩
      · rw [Nat.pow_add]
        exact Nat.mul_le_mul_right _ hfull
      · rw [Nat.add_right_comm, Nat.pow_add]
        exact Nat.mul_lt_mul_of_pos_right hq (Nat.two_pow_pos _)
    omega

/-- An even significand stands in the rounded magnitude; rounded up past its last bit it is a power
of two, whose significand is even too. -/
theorem roundMag_significand_even {F : Format} {num den : Nat} (hd : 0 < den)
    (heven : roundSig F num den % 2 = 0) :
    roundMag F num den / 2 ^ (Nat.log2 (roundMag F num den) - F.mantBits) % 2 = 0 := by
  have hfull : roundShift F num den = 0 ∨ 2 ^ F.mantBits ≤ roundSig F num den :=
    (Nat.eq_zero_or_pos _).imp_right (le_roundSig hd)
  obtain hlt | hcarry := Nat.lt_or_eq_of_le (roundSig_le F (num := num) hd)
  · rw [roundMag_eq, log2_sub_mantBits hlt hfull, Nat.mul_div_cancel _ (Nat.two_pow_pos _), heven]
  · have hnext : roundMag F num den = 2 ^ F.mantBits * 2 ^ (roundShift F num den + 1) := by
      rw [roundMag_eq, hcarry, ← Nat.pow_add, ← Nat.pow_add]
      congr 1
      omega
    rw [hnext, log2_sub_mantBits (Nat.pow_lt_pow_right (by decide) (Nat.lt_succ_self _))
      (.inr (le_refl _)), Nat.mul_div_cancel _ (Nat.two_pow_pos _)]
    exact Nat.mod_eq_zero_of_dvd (dvd_pow_self 2 (mantBits_pos F).ne')

/-! ## Overflow -/

/-- The exponent at which the largest finite values of the format keep their significand. -/
def Format.topShift (F : Format) : Nat := F.overflowExp - F.mantBits - 1

theorem overflowExp_eq (F : Format) : F.overflowExp = F.mantBits + 1 + F.topShift := by
  have := mantBits_lt_overflowExp F
  unfold Format.topShift
  omega

/-- The least significand past the format's, at the top exponent, is the overflow bound. -/
theorem two_pow_overflowExp (F : Format) :
    2 ^ F.overflowExp = 2 ^ (F.mantBits + 1) * 2 ^ F.topShift := by
  rw [overflowExp_eq, Nat.pow_add]

/-- A quotient below the overflow bound keeps its significand at the top exponent or below. -/
theorem roundShift_le_topShift {F : Format} {num den : Nat} (hd : 0 < den)
    (h : num < 2 ^ F.overflowExp * den) : roundShift F num den ≤ F.topShift := by
  by_contra hlt
  have hlow := roundShift_low (F := F) (num := num) hd (by omega)
  have hpow : 2 ^ F.overflowExp ≤ 2 ^ (F.mantBits + roundShift F num den) :=
    Nat.pow_le_pow_right (by decide) (by have := overflowExp_eq F; omega)
  have := Nat.mul_le_mul_right den hpow
  omega

/-- A quotient from half the overflow bound on, and below it, keeps its significand at the top
exponent. -/
theorem roundShift_eq_topShift {F : Format} {num den : Nat} (hd : 0 < den)
    (hlow : 2 ^ F.overflowExp * den ≤ 2 * num) (hhigh : num < 2 ^ F.overflowExp * den) :
    roundShift F num den = F.topShift := by
  refine le_antisymm (roundShift_le_topShift hd hhigh) ?_
  by_contra hlt
  have hbound := roundShift_high F (num := num) hd
  have hpow : 2 ^ (F.mantBits + 1 + roundShift F num den) * 2 ≤ 2 ^ F.overflowExp := by
    rw [← Nat.pow_succ]
    exact Nat.pow_le_pow_right (by decide) (by have := overflowExp_eq F; omega)
  have := Nat.mul_le_mul_right den hpow
  rw [Nat.mul_right_comm] at this
  omega

/-- A quotient rounds up to a power of two exactly from half below it on: the quotient that is half
below lies halfway above an odd integer. -/
theorem roundQuot_even_reaches_pow {n num den : Nat} (hd : 0 < den) :
    2 ^ (n + 1) ≤ roundQuot .even num den ↔ (2 * 2 ^ (n + 1) - 1) * den ≤ 2 * num := by
  obtain ⟨hupper, hlower⟩ := roundQuot_bounds .even num den hd
  have hhalf := halfway_of_roundQuot_bound_attained (ties := .even) (num := num) hd
  have heven : 2 ^ (n + 1) % 2 = 0 := by omega
  have hpos : 0 < 2 ^ (n + 1) := Nat.two_pow_pos _
  have hthreshold : (2 * 2 ^ (n + 1) - 1) * den + den = 2 * (2 ^ (n + 1) * den) := by
    rw [← Nat.succ_mul, Nat.succ_eq_add_one, Nat.sub_add_cancel (by omega), Nat.mul_assoc]
  constructor
  · intro h
    have := Nat.mul_le_mul_right den h
    omega
  · intro h
    by_contra hlt
    have hgap : (roundQuot .even num den + 1) * den ≤ 2 ^ (n + 1) * den :=
      Nat.mul_le_mul_right den (by omega)
    have hexpand := Nat.add_one_mul (roundQuot .even num den) den
    have hodd := roundQuot_even_mod_two_of_halfway (hhalf (.inr (by omega)))
    have hnext : (roundQuot .even num den + 1) * den = 2 ^ (n + 1) * den := by omega
    have := Nat.eq_of_mul_eq_mul_right hd hnext
    omega

/-- The rounded magnitude overflows exactly from half a unit above the largest finite value on. -/
theorem overflows_iff {F : Format} {num den : Nat} (hd : 0 < den) :
    2 ^ F.overflowExp ≤ roundMag F num den ↔
      (2 * 2 ^ F.overflowExp - 2 ^ F.topShift) * den ≤ 2 * num := by
  have hthreshold : (2 * 2 ^ F.overflowExp - 2 ^ F.topShift) * den =
      (2 * 2 ^ (F.mantBits + 1) - 1) * (den * 2 ^ F.topShift) := by
    rw [two_pow_overflowExp, ← Nat.mul_assoc, ← Nat.sub_one_mul, Nat.mul_assoc,
      Nat.mul_comm den]
  have hexpand : (2 * 2 ^ F.overflowExp - 2 ^ F.topShift) * den =
      2 * (2 ^ F.overflowExp * den) - 2 ^ F.topShift * den := by
    rw [Nat.sub_mul, Nat.mul_assoc]
  have hexp := overflowExp_eq F
  have hhalf : 2 ^ F.overflowExp * den = 2 ^ (F.overflowExp - 1) * den * 2 := by
    rw [Nat.mul_right_comm, ← Nat.pow_succ]
    congr 2
    omega
  have hunit : 2 ^ F.topShift * den ≤ 2 ^ (F.overflowExp - 1) * den :=
    Nat.mul_le_mul_right den (Nat.pow_le_pow_right (by decide) (by omega))
  by_cases hlarge : 2 ^ F.overflowExp * den ≤ num
  · exact iff_of_true
      (le_roundMag hd ⟨1, _, Nat.one_lt_two_pow (by omega), (Nat.one_mul _).symm⟩ hlarge)
      (by omega)
  by_cases hsmall : 2 * num < 2 ^ F.overflowExp * den
  · obtain ⟨hbelow, hshort⟩ :=
      representable_pow (F := F) (Nat.sub_lt (by omega) Nat.one_pos)
    have hmag : roundMag F num den < 2 ^ F.overflowExp :=
      Nat.lt_of_le_of_lt (roundMag_le hd hshort (by omega)) hbelow
    exact iff_of_false (by omega) (by omega)
  have hshift : roundShift F num den = F.topShift :=
    roundShift_eq_topShift hd (by omega) (by omega)
  rw [hthreshold, roundMag_eq, roundSig, hshift, two_pow_overflowExp,
    Nat.mul_le_mul_right_iff (Nat.two_pow_pos _),
    roundQuot_even_reaches_pow (Nat.mul_pos hd (Nat.two_pow_pos _))]

/-- Settles O31: nearest by `roundMag_nearest`, even where another value is as near, and infinite
where the rounded magnitude overflows. -/
theorem roundingIsNearestEven : Obligations.RoundingIsNearestEven := by
  intro F neg num den hd
  refine ⟨?_, ?_, ?_⟩
  · intro mag hfin
    obtain ⟨hround, hrep⟩ | ⟨hinf, -⟩ := roundTo_cases F neg (num := num) hd
    · cases hround.symm.trans hfin
      refine ⟨hrep, fun R hR => ?_⟩
      obtain ⟨hle, hhalf⟩ := roundMag_nearest (num := num) hd hR
      simp only [unitsApart, Nat.cast_mul] at hle hhalf
      exact ⟨hle, fun heq hne => roundMag_significand_even hd
        (roundQuot_even_mod_two_of_halfway (hhalf heq hne))⟩
    · cases hinf.symm.trans hfin
  · refine Iff.trans ?_ (overflows_iff hd)
    rw [roundTo_eq]
    split <;> simp <;> omega
  · obtain ⟨hround, -⟩ | ⟨hinf, -⟩ := roundTo_cases F neg (num := num) hd
    · exact .inr ⟨_, hround⟩
    · exact .inl hinf

end Sys2Proof.Machine
end

section
/-! Bit patterns and exact values (R11, R87, R88, R145, R146): the fields of a pattern, the pattern
a value gives back, and each operation and conversion as one rounding of its exact rational result.
-/

namespace Sys2Proof.Machine

/-! ## The fields of a bit pattern -/

/-- The sign field of a pattern: its top bit. -/
def negField (F : Format) (b : Nat) : Bool := b / 2 ^ (F.mantBits + F.expBits) % 2 == 1

/-- The exponent field of a pattern. -/
def expField (F : Format) (b : Nat) : Nat := b / 2 ^ F.mantBits % 2 ^ F.expBits

/-- The fraction field of a pattern. -/
def fracField (F : Format) (b : Nat) : Nat := b % 2 ^ F.mantBits

theorem ofBits_eq (F : Format) (b : Nat) : FloatVal.ofBits F b =
    if expField F b = 2 ^ F.expBits - 1 then
      (if fracField F b = 0 then .inf (negField F b) else .nan)
    else if expField F b = 0 then .fin (negField F b) (fracField F b)
    else .fin (negField F b) ((2 ^ F.mantBits + fracField F b) * 2 ^ (expField F b - 1)) := rfl

theorem ofBits_eq_nan_iff {F : Format} {b : Nat} : FloatVal.ofBits F b = .nan ↔
    expField F b = 2 ^ F.expBits - 1 ∧ fracField F b ≠ 0 := by
  rw [ofBits_eq]
  split_ifs <;> simp_all

theorem ofBits_eq_inf_iff {F : Format} {b : Nat} {s : Bool} : FloatVal.ofBits F b = .inf s ↔
    expField F b = 2 ^ F.expBits - 1 ∧ fracField F b = 0 ∧ s = negField F b := by
  rw [ofBits_eq]
  split_ifs <;> simp_all [eq_comm]

/-- A finite pattern is subnormal, with exponent field 0, or normal. -/
theorem ofBits_eq_fin {F : Format} {b mag : Nat} {s : Bool} (h : FloatVal.ofBits F b = .fin s mag) :
    s = negField F b ∧
      ((expField F b = 0 ∧ mag = fracField F b) ∨
      (0 < expField F b ∧
        mag = (2 ^ F.mantBits + fracField F b) * 2 ^ (expField F b - 1))) := by
  rw [ofBits_eq] at h
  split_ifs at h with hmax hfrac hzero
  · cases h
    exact ⟨rfl, .inl ⟨hzero, rfl⟩⟩
  · cases h
    exact ⟨rfl, .inr ⟨Nat.pos_of_ne_zero hzero, rfl⟩⟩

theorem fracField_lt (F : Format) (b : Nat) : fracField F b < 2 ^ F.mantBits :=
  Nat.mod_lt _ (Nat.two_pow_pos _)

/-- A pattern is its fields put together. -/
theorem fields_eq {F : Format} {b : Nat} (hb : b < 2 ^ (F.mantBits + F.expBits + 1)) :
    signBit F (negField F b) + (expField F b * 2 ^ F.mantBits + fracField F b) = b := by
  have hfrac : b / 2 ^ F.mantBits * 2 ^ F.mantBits + fracField F b = b := Nat.div_add_mod' _ _
  have hexp : b / 2 ^ F.mantBits / 2 ^ F.expBits * 2 ^ F.expBits + expField F b =
      b / 2 ^ F.mantBits := Nat.div_add_mod' _ _
  have hsign : signBit F (negField F b) =
      b / 2 ^ F.mantBits / 2 ^ F.expBits * 2 ^ F.expBits * 2 ^ F.mantBits := by
    have htop : b / 2 ^ (F.mantBits + F.expBits) < 2 :=
      Nat.div_lt_of_lt_mul (by rwa [← Nat.pow_succ])
    rw [Nat.div_div_eq_div_mul, ← Nat.pow_add, Nat.mul_assoc, ← Nat.pow_add,
      Nat.add_comm F.expBits]
    unfold signBit negField
    generalize b / 2 ^ (F.mantBits + F.expBits) = top at htop
    interval_cases top <;> simp
  rw [hsign, ← Nat.add_assoc, ← Nat.add_mul, hexp, hfrac]

/-- The pattern of a finite value, from a significand and the exponent at which it keeps it. -/
theorem toBits_fin {F : Format} {s : Bool} {q sh : Nat} (hq : q < 2 ^ (F.mantBits + 1))
    (hfull : sh = 0 ∨ 2 ^ F.mantBits ≤ q) :
    FloatVal.toBits F (.fin s (q * 2 ^ sh)) = signBit F s + (sh * 2 ^ F.mantBits + q) := by
  simp only [FloatVal.toBits, log2_sub_mantBits hq hfull, Nat.mul_div_cancel _ (Nat.two_pow_pos sh)]

/-- Every pattern that is no NaN is given back (R146, R88). -/
theorem toBits_ofBits {F : Format} {b : Nat} (hb : b < 2 ^ (F.mantBits + F.expBits + 1))
    (hnan : FloatVal.ofBits F b ≠ .nan) : (FloatVal.ofBits F b).toBits F = b := by
  have hfields := fields_eq hb
  have hlt := fracField_lt F b
  have hpow : 2 ^ (F.mantBits + 1) = 2 ^ F.mantBits + 2 ^ F.mantBits := by
    rw [Nat.pow_succ, Nat.mul_two]
  cases hv : FloatVal.ofBits F b with
  | nan => exact absurd hv hnan
  | inf s =>
    obtain ⟨hexp, hfrac, rfl⟩ := ofBits_eq_inf_iff.1 hv
    rw [hexp, hfrac] at hfields
    exact hfields
  | fin s mag =>
    obtain ⟨rfl, ⟨hexp, rfl⟩ | ⟨hexp, rfl⟩⟩ := ofBits_eq_fin hv
    · have := toBits_fin (F := F) (s := negField F b) (sh := 0) (q := fracField F b) (by omega)
        (.inl rfl)
      rw [hexp] at hfields
      rw [Nat.pow_zero, Nat.mul_one] at this
      rw [this, hfields]
    · rw [toBits_fin (by omega) (.inr (Nat.le_add_right _ _)), ← Nat.add_assoc (_ * _),
        ← Nat.succ_mul, Nat.succ_eq_add_one, Nat.sub_add_cancel hexp, hfields]

/-! ## The operand patterns (R87) -/

theorem getLsbD_eq_decide (w : Word) (i : Nat) :
    w.getLsbD i = (w.toNat / 2 ^ i % 2 == 1) := by
  rw [BitVec.getLsbD, Nat.testBit_eq_decide_div_mod_eq]
  rfl

/-- The fields of an F32 operand are bits 31, 30:23 and 22:0 of the word. -/
theorem fields_f32 (w : Word) :
    let b := (w.extractLsb' 0 32).toNat
    negField .f32 b = w.getLsbD 31 ∧ expField .f32 b = (w.extractLsb' 23 8).toNat ∧
      fracField .f32 b = (w.extractLsb' 0 23).toNat := by
  simp only [negField, expField, fracField, Format.mantBits, Format.expBits, getLsbD_eq_decide,
    BitVec.extractLsb'_toNat, Nat.shiftRight_eq_div_pow]
  refine ⟨?_, ?_, ?_⟩
  · congr 1
    omega
  · omega
  · omega

/-- The fields of an F64 operand are bits 63, 62:52 and 51:0 of the word. -/
theorem fields_f64 (w : Word) :
    negField .f64 w.toNat = w.getLsbD 63 ∧ expField .f64 w.toNat = (w.extractLsb' 52 11).toNat ∧
      fracField .f64 w.toNat = (w.extractLsb' 0 52).toNat := by
  simp only [negField, expField, fracField, Format.mantBits, Format.expBits, getLsbD_eq_decide,
    BitVec.extractLsb'_toNat, Nat.shiftRight_eq_div_pow]
  exact ⟨trivial, trivial, by omega⟩

/-- An exponent field of all ones, on the word and on its value. -/
theorem toNat_eq_max_iff {n : Nat} (e : BitVec n) : e.toNat = 2 ^ n - 1 ↔ e = BitVec.allOnes n := by
  rw [← BitVec.toNat_inj, BitVec.toNat_allOnes]

theorem toNat_eq_zero_iff {n : Nat} (f : BitVec n) : f.toNat = 0 ↔ f = 0 := by
  rw [← BitVec.toNat_inj]
  rfl

theorem operandF32_eq_nan_iff (w : Word) :
    operandF32 w = .nan ↔ w.extractLsb' 23 8 = 0xFF ∧ w.extractLsb' 0 23 ≠ 0 := by
  obtain ⟨-, hexp, hfrac⟩ := fields_f32 w
  rw [operandF32, ofBits_eq_nan_iff, hexp, hfrac, ne_eq, toNat_eq_zero_iff]
  exact and_congr_left' (toNat_eq_max_iff _)

theorem operandF32_eq_inf_iff (w : Word) (s : Bool) : operandF32 w = .inf s ↔
    w.extractLsb' 23 8 = 0xFF ∧ w.extractLsb' 0 23 = 0 ∧ s = w.getLsbD 31 := by
  obtain ⟨hneg, hexp, hfrac⟩ := fields_f32 w
  rw [operandF32, ofBits_eq_inf_iff, hneg, hexp, hfrac, toNat_eq_zero_iff]
  exact and_congr_left' (toNat_eq_max_iff _)

theorem operandF64_eq_nan_iff (w : Word) :
    operandF64 w = .nan ↔ w.extractLsb' 52 11 = 0x7FF ∧ w.extractLsb' 0 52 ≠ 0 := by
  obtain ⟨-, hexp, hfrac⟩ := fields_f64 w
  rw [operandF64, ofBits_eq_nan_iff, hexp, hfrac, ne_eq, toNat_eq_zero_iff]
  exact and_congr_left' (toNat_eq_max_iff _)

theorem operandF64_eq_inf_iff (w : Word) (s : Bool) : operandF64 w = .inf s ↔
    w.extractLsb' 52 11 = 0x7FF ∧ w.extractLsb' 0 52 = 0 ∧ s = w.getLsbD 63 := by
  obtain ⟨hneg, hexp, hfrac⟩ := fields_f64 w
  rw [operandF64, ofBits_eq_inf_iff, hneg, hexp, hfrac, toNat_eq_zero_iff]
  exact and_congr_left' (toNat_eq_max_iff _)

theorem resultF32_nan : resultF32 .nan = 0x7FC00000 := rfl

theorem resultF64_nan : resultF64 .nan = 0x7FF8000000000000 := rfl

theorem resultF32_operandF32 {w : Word} (h : operandF32 w ≠ .nan) :
    resultF32 (operandF32 w) = (w.extractLsb' 0 32).zeroExtend 64 := by
  have hkept := toBits_ofBits (F := .f32) (BitVec.isLt (w.extractLsb' 0 32)) h
  rw [resultF32, operandF32, hkept, BitVec.ofNat_toNat, BitVec.setWidth_eq]

theorem resultF64_operandF64 {w : Word} (h : operandF64 w ≠ .nan) :
    resultF64 (operandF64 w) = w := by
  have hkept := toBits_ofBits (F := .f64) (BitVec.isLt w) h
  rw [resultF64, operandF64, hkept, BitVec.ofNat_toNat, BitVec.setWidth_eq]

/-! ## The value of a finite pattern (R11) -/

/-- What IEEE 754 subtracts from the exponent field. -/
def Format.bias : Format → Int
  | .f32 => 127
  | .f64 => 1023

theorem bias_eq (F : Format) : F.bias = (F.unitExp : Int) + 1 - F.mantBits := by cases F <;> rfl

/-- The units of a normal pattern, as one and a fraction at a power of two. -/
theorem normal_units (F : Format) (f : Nat) {e : Nat} (he : 0 < e) :
    (((2 ^ F.mantBits + f) * 2 ^ (e - 1) : Nat) : ℚ) / F.one =
      (1 + (f : ℚ) / 2 ^ F.mantBits) * 2 ^ ((e : Int) - F.bias) := by
  obtain ⟨n, rfl⟩ : ∃ n, e = n + 1 := ⟨e - 1, by omega⟩
  have hexp : ((n + 1 : Nat) : Int) - F.bias = (F.mantBits : Int) + n - F.unitExp := by
    rw [bias_eq]
    push_cast
    ring
  have htwo : (2 : ℚ) ≠ 0 := two_ne_zero
  rw [hexp, zpow_sub₀ htwo, zpow_add₀ htwo, Format.one, Nat.add_sub_cancel]
  push_cast [zpow_natCast]
  have hm : (2 : ℚ) ^ F.mantBits ≠ 0 := pow_ne_zero _ htwo
  field_simp

/-- The value of a finite pattern is its sign times a subnormal fraction or a normal value. -/
theorem ratio_of_ofBits {F : Format} {b m : Nat} {s : Bool} (h : FloatVal.ofBits F b = .fin s m) :
    s = negField F b ∧ F.ratio s m 1 = (if s then -1 else 1) *
      (if expField F b = 0 then (fracField F b : ℚ) / 2 ^ F.unitExp
       else (1 + (fracField F b : ℚ) / 2 ^ F.mantBits) * 2 ^ ((expField F b : Int) - F.bias)) := by
  have hunits (m : Nat) : F.ratio s m 1 = (if s then -1 else 1) * ((m : ℚ) / F.one) := by
    rw [Format.ratio, Nat.cast_one, one_mul, mul_div_assoc]
  obtain ⟨hs, ⟨hexp, rfl⟩ | ⟨hexp, rfl⟩⟩ := ofBits_eq_fin h
  · rw [hunits, if_pos hexp, Format.one, Nat.cast_pow, Nat.cast_ofNat]
    exact ⟨hs, rfl⟩
  · rw [hunits, if_neg hexp.ne', normal_units F _ hexp]
    exact ⟨hs, rfl⟩

/-! ## One rounding of the exact result -/

/-- The exact ratio of a signed count of units. -/
theorem ratio_natAbs (F : Format) {x : Int} {neg : Bool} (h : neg = true → x ≤ 0)
    (h' : neg = false → 0 ≤ x) : F.ratio neg x.natAbs 1 = (x : ℚ) / F.one := by
  have hx : signedUnits neg x.natAbs = x := by
    cases neg with
    | false => simpa [signedUnits] using h' rfl
    | true =>
      have := h rfl
      simp only [signedUnits, if_true]
      omega
  rw [ratio_one, hx]

theorem ratio_eq_zero_iff (F : Format) (neg : Bool) (mag : Nat) :
    F.ratio neg mag 1 = 0 ↔ mag = 0 := by
  rw [ratio_one, div_eq_zero_iff, or_iff_left (one_ne_zero_rat F)]
  cases neg <;> simp [signedUnits]

theorem roundsOnce_cvt (F : Format) (k : Int) : RoundsOnce F (cvt F k) k false := by
  refine ⟨decide (k < 0), k.natAbs * F.one, 1, Nat.one_pos, rfl, ?_, ?_⟩
  · have hk : F.ratio (decide (k < 0)) (k.natAbs * F.one) 1 = (k * F.one : Int) / F.one := by
      rw [← ratio_natAbs F (neg := decide (k < 0)) (x := k * F.one)]
      · rw [Int.natAbs_mul, Int.natAbs_natCast]
      · intro hneg
        exact Int.mul_nonpos_of_nonpos_of_nonneg (by simp at hneg; omega) (Int.natCast_nonneg _)
      · intro hneg
        exact Int.mul_nonneg (by simpa using hneg) (Int.natCast_nonneg _)
    rw [hk, Int.cast_mul, Int.cast_natCast, mul_div_cancel_right₀ _ (one_ne_zero_rat F)]
  · intro hzero
    have : k = 0 := by exact_mod_cast hzero
    simp [this]

theorem roundTo_zero (F : Format) (neg : Bool) : roundTo F neg 0 1 = .fin neg 0 := by
  have hzero : F.Representable 0 := ⟨Nat.two_pow_pos _, 0, 0, Nat.two_pow_pos _, rfl⟩
  simpa using roundTo_exact neg Nat.one_pos hzero

/-- A sum of zero is negative only if both operands are. -/
theorem addF_of_sum_zero (F : Format) {s t : Bool} {m n : Nat}
    (h : signedUnits s m + signedUnits t n = 0) :
    addF F (.fin s m) (.fin t n) = .fin (s && t) 0 := by
  rw [addF_fin_def]
  by_cases hst : s = t
  · subst hst
    have hm : m + n = 0 := by
      cases s <;> simp only [signedUnits, if_true, if_false, reduceCtorEq] at h <;> omega
    rw [if_pos rfl, hm, roundTo_zero, Bool.and_self]
  · have hmn : m = n := by
      cases s <;> cases t <;> simp [signedUnits] at h hst <;> omega
    have hneg : (s && t) = false := by
      cases s <;> cases t <;> simp at hst ⊢
    rw [if_neg hst, if_neg (by omega), if_neg (by omega), hneg]

theorem roundsOnce_addF (F : Format) (s t : Bool) (m n : Nat) :
    RoundsOnce F (addF F (.fin s m) (.fin t n)) (F.ratio s m 1 + F.ratio t n 1) (s && t) := by
  have hsum : F.ratio s m 1 + F.ratio t n 1 =
      ((signedUnits s m + signedUnits t n : Int) : ℚ) / F.one := by
    rw [ratio_one, ratio_one, Int.cast_add, add_div]
  rw [hsum]
  by_cases hzero : signedUnits s m + signedUnits t n = 0
  · refine ⟨s && t, 0, 1, Nat.one_pos, ?_, ?_, fun _ => rfl⟩
    · rw [addF_of_sum_zero F hzero, roundTo_zero]
    · rw [hzero, Int.cast_zero, zero_div, ratio_eq_zero_iff]
  · obtain ⟨neg, hround, hneg, hpos⟩ := addF_fin F s t m n
    refine ⟨neg, _, 1, Nat.one_pos, hround, ratio_natAbs F hneg hpos, fun h => ?_⟩
    rw [div_eq_zero_iff, or_iff_left (one_ne_zero_rat F), Int.cast_eq_zero] at h
    exact absurd h hzero

theorem roundsOnce_subF (F : Format) (s t : Bool) (m n : Nat) :
    RoundsOnce F (subF F (.fin s m) (.fin t n)) (F.ratio s m 1 - F.ratio t n 1) (s && !t) := by
  rw [sub_eq_add_neg, ← ratio_not]
  exact roundsOnce_addF F s (!t) m n

/-- The sign of a product or a quotient is the product of the signs. -/
theorem sign_bne_eq_mul (s t : Bool) :
    (if (s != t) = true then (-1 : ℚ) else 1) =
      (if s = true then -1 else 1) * (if t = true then -1 else 1) := by
  cases s <;> cases t <;> norm_num

theorem roundsOnce_mulF (F : Format) (s t : Bool) (m n : Nat) :
    RoundsOnce F (mulF F (.fin s m) (.fin t n)) (F.ratio s m 1 * F.ratio t n 1) (s != t) := by
  refine ⟨s != t, m * n, F.one, one_pos F, rfl, ?_, fun _ => rfl⟩
  have hone := one_ne_zero_rat F
  simp only [Format.ratio, sign_bne_eq_mul]
  push_cast
  field_simp

theorem roundsOnce_divF (F : Format) (s t : Bool) (m : Nat) {n : Nat} (hn : n ≠ 0) :
    RoundsOnce F (divF F (.fin s m) (.fin t n)) (F.ratio s m 1 / F.ratio t n 1) (s != t) := by
  refine ⟨s != t, m * F.one, n, Nat.pos_of_ne_zero hn, if_neg hn, ?_, fun _ => rfl⟩
  have hone := one_ne_zero_rat F
  have hn' : (n : ℚ) ≠ 0 := Nat.cast_ne_zero.2 hn
  simp only [Format.ratio, sign_bne_eq_mul]
  push_cast
  cases t <;> field_simp <;> norm_num

/-- Settles O60: the fields of either operand give its value, and each operation is one rounding. -/
theorem floatOperationsRoundOnce : Obligations.FloatOperationsRoundOnce := by
  refine ⟨fun w s m => ⟨fun h => ?_, fun h => ?_⟩, roundsOnce_cvt, fun F s t m n =>
    ⟨roundsOnce_addF F s t m n, roundsOnce_subF F s t m n, roundsOnce_mulF F s t m n,
      roundsOnce_divF F s t m⟩⟩
  · obtain ⟨hneg, hexp, hfrac⟩ := fields_f32 w
    have hvalue := ratio_of_ofBits h
    rw [hneg, hexp, hfrac] at hvalue
    exact hvalue
  · obtain ⟨hneg, hexp, hfrac⟩ := fields_f64 w
    have hvalue := ratio_of_ofBits h
    rw [hneg, hexp, hfrac] at hvalue
    exact hvalue

end Sys2Proof.Machine
end

section
/-! Host programs (spec/30_encoding.md R89, R90): literals, lines and pseudo-instructions. -/

namespace Sys2Proof.Machine

/-- A float literal is its exact decimal value rounded once: units times a power of ten, or units
over one. -/
theorem roundsOnce_litOf (F : Format) (x : FloatLit) : RoundsOnce F (litOf F x)
    ((if x.neg then -1 else 1) * (x.digits : ℚ) * 10 ^ x.exp10) x.neg := by
  have hone := one_ne_zero_rat F
  cases hexp : x.exp10 with
  | ofNat e =>
    refine ⟨x.neg, x.digits * 10 ^ e * F.one, 1, Nat.one_pos, by rw [litOf, hexp], ?_, fun _ => rfl⟩
    rw [Format.ratio, Int.ofNat_eq_natCast, zpow_natCast]
    push_cast
    field_simp
  | negSucc e =>
    refine ⟨x.neg, x.digits * F.one, 10 ^ (e + 1), Nat.pow_pos (by decide), by rw [litOf, hexp], ?_,
      fun _ => rfl⟩
    rw [Format.ratio, zpow_negSucc]
    push_cast
    field_simp

/-- The access a line names, at the register's offset. -/
theorem programAccesses_lines (p : Params) (r : Reg) (n : Int) (x : FloatLit) :
    programAccesses p
      [.line (.rd r), .line (.wr r (.num n)), .line (.wr r (.f32 x)), .line (.wr r (.f64 x))] =
    [⟨p.base + r.offset, 8, .read⟩, ⟨p.base + r.offset, 8, .write (BitVec.ofInt 64 n)⟩,
      ⟨p.base + r.offset, 8, .write (resultF32 (litOf .f32 x))⟩,
      ⟨p.base + r.offset, 8, .write (resultF64 (litOf .f64 x))⟩] := rfl

/-- Settles O59: the lines by register, the literals by `roundsOnce_litOf`, and each
pseudo-instruction by its row of `expand`. -/
theorem hostProgramAccesses : Obligations.HostProgramAccesses := by
  intro p
  refine ⟨fun r n x => (programAccesses_lines p r n x).trans (by cases r <;> rfl),
    roundsOnce_litOf, fun _ => rfl, fun _ _ => rfl, rfl, rfl, rfl, fun _ _ => rfl, fun _ _ => rfl,
    fun _ _ => rfl, fun _ _ => rfl, rfl, rfl, rfl, rfl, rfl, rfl, fun _ => rfl, rfl, rfl⟩

end Sys2Proof.Machine
end

section
/-! Signed rounding and the unit values (spec/41_unit.md R130 to R134, spec/42_range.md R154): a sum
and a conversion as one rounding of a signed count of units, and the unit value of a scaled value.
-/

namespace Sys2Proof.Machine

/-! ## One rounding of a signed count of units -/

/-- `r` is the signed count `x` of units rounded once, with a sign that fits it. -/
def RoundsUnits (F : Format) (x : Int) (r : FloatVal) : Prop :=
  ∃ neg, r = roundTo F neg x.natAbs 1 ∧ (neg = true → x ≤ 0) ∧ (neg = false → 0 ≤ x)

theorem roundsUnits_addF (F : Format) (s t : Bool) (m n : Nat) :
    RoundsUnits F (signedUnits s m + signedUnits t n) (addF F (.fin s m) (.fin t n)) :=
  addF_fin F s t m n

theorem signedUnits_not (s : Bool) (m : Nat) : signedUnits (!s) m = -signedUnits s m := by
  cases s <;> simp [signedUnits]

theorem roundsUnits_subF (F : Format) (s t : Bool) (m n : Nat) :
    RoundsUnits F (signedUnits s m - signedUnits t n) (subF F (.fin s m) (.fin t n)) := by
  rw [sub_eq_add_neg, ← signedUnits_not]
  exact roundsUnits_addF F s (!t) m n

/-- A conversion is the integer's count of units, rounded once. -/
theorem roundsUnits_cvt (F : Format) (n : Int) : RoundsUnits F (n * F.one) (cvt F n) := by
  refine ⟨decide (n < 0), ?_, fun hneg => ?_, fun hneg => ?_⟩
  · rw [Int.natAbs_mul, Int.natAbs_natCast, cvt]
  · exact Int.mul_nonpos_of_nonpos_of_nonneg (le_of_lt (by simpa using hneg))
      (Int.natCast_nonneg _)
  · exact Int.mul_nonneg (by simpa using hneg) (Int.natCast_nonneg _)

theorem le_of_roundsUnits {F : Format} {x y : Int} {r q : FloatVal} (h : x ≤ y)
    (hr : RoundsUnits F x r) (hq : RoundsUnits F y q) : FloatVal.le r q = true := by
  obtain ⟨s, rfl, hs, hs'⟩ := hr
  obtain ⟨t, rfl, ht, ht'⟩ := hq
  exact roundTo_le_roundTo F h hs hs' ht ht'

/-- A value of the format is its own rounding. -/
theorem roundsUnits_self {F : Format} {m : Nat} (s : Bool) (hm : F.Representable m) :
    RoundsUnits F (signedUnits s m) (.fin s m) := by
  have hexact := roundTo_exact s Nat.one_pos hm
  rw [Nat.mul_one] at hexact
  refine ⟨s, by rw [natAbs_signedUnits, hexact], ?_, ?_⟩ <;> rintro rfl <;> simp [signedUnits]

theorem le_fin_iff {s t : Bool} {m n : Nat} :
    FloatVal.le (.fin s m) (.fin t n) = true ↔ signedUnits s m ≤ signedUnits t n := by
  simp [FloatVal.le]

/-- What lies between two finite values is finite. -/
theorem exists_fin_of_le_of_le {s t : Bool} {m n : Nat} {r : FloatVal}
    (h : FloatVal.le (.fin s m) r = true) (h' : FloatVal.le r (.fin t n) = true) :
    ∃ neg mag, r = .fin neg mag := by
  cases r with
  | nan => simp [FloatVal.le] at h
  | inf neg => cases neg <;> simp [FloatVal.le] at h h'
  | fin neg mag => exact ⟨neg, mag, rfl⟩

theorem representable_of_roundsUnits {F : Format} {x : Int} {neg : Bool} {mag : Nat}
    (h : RoundsUnits F x (.fin neg mag)) : F.Representable mag := by
  obtain ⟨s, hround, -⟩ := h
  obtain ⟨hfin, hrep⟩ | ⟨hinf, -⟩ := roundTo_cases F s (num := x.natAbs) Nat.one_pos
  · cases hround.trans hfin
    exact hrep
  · cases hround.trans hinf

/-- A count of units between two values of the format is rounded to a value between them. -/
theorem roundsUnits_mem {F : Format} {x : Int} {r : FloatVal} {s t : Bool} {m n : Nat}
    (hm : F.Representable m) (hn : F.Representable n) (hlow : signedUnits s m ≤ x)
    (hhigh : x ≤ signedUnits t n) (hr : RoundsUnits F x r) :
    ∃ neg mag, r = .fin neg mag ∧ F.Representable mag ∧
      signedUnits s m ≤ signedUnits neg mag ∧ signedUnits neg mag ≤ signedUnits t n := by
  have hle := le_of_roundsUnits hlow (roundsUnits_self s hm) hr
  have hle' := le_of_roundsUnits hhigh hr (roundsUnits_self t hn)
  obtain ⟨neg, mag, rfl⟩ := exists_fin_of_le_of_le hle hle'
  exact ⟨neg, mag, rfl, representable_of_roundsUnits hr, le_fin_iff.1 hle, le_fin_iff.1 hle'⟩

/-- A count of units that is a value of the format is kept. -/
theorem roundsUnits_exact {F : Format} {x : Int} {r : FloatVal} (hx : F.Representable x.natAbs)
    (hr : RoundsUnits F x r) : ∃ neg, r = .fin neg x.natAbs ∧ signedUnits neg x.natAbs = x := by
  obtain ⟨neg, rfl, hneg, hpos⟩ := hr
  have hexact := roundTo_exact neg Nat.one_pos hx
  rw [Nat.mul_one] at hexact
  refine ⟨neg, hexact, ?_⟩
  cases neg with
  | false => simpa [signedUnits] using hpos rfl
  | true =>
    have := hneg rfl
    simp only [signedUnits, if_true]
    omega

/-! ## Conversions (R154) -/

theorem cvt_of_small {F : Format} {n : Int} (h : n.natAbs ≤ 2 ^ (F.mantBits + 1)) :
    cvt F n = .fin (decide (n < 0)) (n.natAbs * F.one) := by
  have hexact := roundTo_exact (decide (n < 0)) Nat.one_pos (representable_small h)
  rwa [Nat.mul_one] at hexact

/-- Settles O40: a small integer times one is a value of the format. -/
theorem smallBoundsWidenExactly : Obligations.SmallBoundsWidenExactly := by
  refine fun n => ⟨fun h => ?_, fun h => ?_⟩
  · rw [cvt_of_small (F := .f32) h, Format.one, Format.unitExp]
  · rw [cvt_of_small (F := .f64) h, Format.one, Format.unitExp]

/-! ## Unit values (R132 to R134) -/

/-- The magnitude of a converted natural number. -/
def cvtMag (F : Format) (n : Nat) : Nat := roundMag F (n * F.one) 1

/-- The magnitude of the unit value of a scaled value. -/
def unitMag (F : Format) (s : Nat) : Nat :=
  roundMag F (cvtMag F s * F.one) (cvtMag F 4294967295)

theorem cvtMag_mono (F : Format) {m n : Nat} (h : m ≤ n) : cvtMag F m ≤ cvtMag F n :=
  roundMag_mono F Nat.one_pos (Nat.mul_le_mul_right _ h)

theorem representable_two_pow_mul_one {F : Format} {k : Nat} (hk : k ≤ F.mantBits + 1 ∨ k ≤ 64) :
    F.Representable (2 ^ k * F.one) := by
  rw [Format.one, ← Nat.pow_add]
  refine representable_pow ?_
  have := unitExp_lt_overflowExp F
  have : 64 + F.unitExp < F.overflowExp := by cases F <;> decide
  omega

theorem le_cvtMag (F : Format) {n : Nat} (h : 1 ≤ n) : F.one ≤ cvtMag F n := by
  refine le_roundMag Nat.one_pos (representable_one F).2 ?_
  rw [Nat.mul_one]
  exact Nat.le_mul_of_pos_left _ h

theorem cvtMag_modulus_pos (F : Format) : 0 < cvtMag F 4294967295 :=
  Nat.lt_of_lt_of_le (one_pos F) (le_cvtMag F (by decide))

/-- A natural number up to 2^32 is converted to a finite value. -/
theorem cvt_natCast (F : Format) {n : Nat} (h : n ≤ 2 ^ 32) :
    cvt F n = .fin false (cvtMag F n) ∧ cvtMag F n ≤ 2 ^ 32 * F.one := by
  have hrep : F.Representable (2 ^ 32 * F.one) := representable_two_pow_mul_one (.inr (by decide))
  have hle : n * F.one ≤ 2 ^ 32 * F.one * 1 := by
    rw [Nat.mul_one]
    exact Nat.mul_le_mul_right _ h
  obtain ⟨hfin, hmag, -⟩ := roundTo_of_le false Nat.one_pos hrep hle
  exact ⟨by rw [cvt, Int.natAbs_natCast, decide_eq_false (by omega), hfin, cvtMag], hmag⟩

theorem unitMag_mono (F : Format) {s s' : Nat} (h : s ≤ s') : unitMag F s ≤ unitMag F s' :=
  roundMag_mono F (cvtMag_modulus_pos F) (Nat.mul_le_mul_right _ (cvtMag_mono F h))

/-- R133: the unit value of a scaled value is the quotient of the two conversions, at most one. -/
theorem unitOf_eq (F : Format) {s : Word} (hs : s.toNat ≤ 4294967294) :
    unitOf F s = .fin false (unitMag F s.toNat) ∧ unitMag F s.toNat ≤ F.one := by
  have hmodulus := cvtMag_modulus_pos F
  have hquot : cvtMag F s.toNat * F.one ≤ F.one * cvtMag F 4294967295 := by
    rw [Nat.mul_comm]
    exact Nat.mul_le_mul_left _ (cvtMag_mono F (by omega))
  obtain ⟨hfin, hle, -⟩ := roundTo_of_le false hmodulus (representable_one F) hquot
  obtain ⟨hcvt, -⟩ := cvt_natCast F (show s.toNat ≤ 2 ^ 32 by omega)
  obtain ⟨hcvt', -⟩ := cvt_natCast F (show 4294967295 ≤ 2 ^ 32 by decide)
  refine ⟨?_, hle⟩
  rw [unitOf, hcvt, ← Nat.cast_ofNat (R := Int), hcvt', divF, if_neg hmodulus.ne']
  exact hfin

/-- R134: the unit value is zero for the scaled value 0 only. -/
theorem unitMag_eq_zero_iff (F : Format) (s : Nat) : unitMag F s = 0 ↔ s = 0 := by
  have hmodulus := cvtMag_modulus_pos F
  have hzero (den : Nat) (hd : 0 < den) : roundMag F 0 den = 0 := by
    have := roundMag_exact (F := F) (R := 0) hd ⟨0, 0, Nat.two_pow_pos _, rfl⟩
    rwa [Nat.zero_mul] at this
  constructor
  · intro h
    by_contra hne
    have hone : 2 ^ 32 ≤ F.one := Nat.pow_le_pow_right (by decide) (by cases F <;> decide)
    have hnum : 1 * cvtMag F 4294967295 ≤ cvtMag F s * F.one := by
      calc 1 * cvtMag F 4294967295 ≤ 2 ^ 32 * F.one := by
            rw [Nat.one_mul]
            exact (cvt_natCast F (by decide)).2
        _ ≤ cvtMag F s * F.one :=
            Nat.mul_le_mul_right _ (hone.trans (le_cvtMag F (Nat.pos_of_ne_zero hne)))
    have := le_roundMag (F := F) hmodulus
      ⟨1, 0, Nat.one_lt_two_pow (Nat.succ_ne_zero _), rfl⟩ hnum
    rw [unitMag] at h
    omega
  · rintro rfl
    rw [unitMag, cvtMag, Nat.zero_mul, hzero 1 Nat.one_pos, Nat.zero_mul, hzero _ hmodulus]

/-- The F32 unit values on either side of the threshold of R134. -/
theorem unitMag_f32_threshold :
    unitMag .f32 4294967167 < 2 ^ 149 ∧ unitMag .f32 4294967168 = 2 ^ 149 := by decide +kernel

/-- Settles O29: unit values grow with the scaled value, so the threshold decides which are one. -/
theorem unit32AtMostOne : Obligations.Unit32AtMostOne := by
  intro s hs
  obtain ⟨hunit, hle⟩ := unitOf_eq .f32 hs
  obtain ⟨hbelow, hreached⟩ := unitMag_f32_threshold
  refine ⟨_, hunit, hle, (unitMag_eq_zero_iff _ _).trans (toNat_eq_zero_iff s), ?_, ?_⟩
  · intro hone
    by_contra hlt
    have := unitMag_mono .f32 (show s.toNat ≤ 4294967167 by omega)
    omega
  · intro hge
    exact le_antisymm hle (hreached ▸ unitMag_mono .f32 hge)

/-- The largest F64 unit value (R134), and that it is below one. -/
theorem unitMag_f64_top :
    FloatVal.ofBits .f64 0x3fefffffffe00000 = .fin false (unitMag .f64 4294967294) ∧
    unitMag .f64 4294967294 < 2 ^ 1074 := by decide +kernel

/-- Settles O30: unit values grow with the scaled value, up to that of the largest one. -/
theorem unit64BelowOne : Obligations.Unit64BelowOne := by
  intro s hs
  obtain ⟨hunit, -⟩ := unitOf_eq .f64 hs
  obtain ⟨htop, hbelow⟩ := unitMag_f64_top
  have hle := unitMag_mono .f64 hs
  refine ⟨_, hunit, hle.trans_lt hbelow, (unitMag_eq_zero_iff _ _).trans (toNat_eq_zero_iff s), ?_⟩
  rw [htop, le_fin_iff]
  exact Int.ofNat_le.2 hle

end Sys2Proof.Machine
end

section
/-! The float and integer ranges (spec/42_range.md R150 to R173) and the vector components
(spec/43_vector.md R182): where a range begins and ends, and its corner cases. -/

namespace Sys2Proof.Machine

/-! ## The affine remap of finite bounds -/

/-- The magnitude of a difference times a unit value. -/
def shareMag (F : Format) (d u : Nat) : Nat := roundMag F (d * u) F.one

theorem shareMag_mono (F : Format) (d : Nat) {u u' : Nat} (h : u ≤ u') :
    shareMag F d u ≤ shareMag F d u' :=
  roundMag_mono F (one_pos F) (Nat.mul_le_mul_left d h)

/-- A difference times a unit value is finite, of the difference's sign and no larger. -/
theorem mulF_unit {F : Format} {s : Bool} {d u : Nat} (hd : F.Representable d) (hu : u ≤ F.one) :
    mulF F (.fin s d) (.fin false u) = .fin s (shareMag F d u) ∧ shareMag F d u ≤ d := by
  obtain ⟨hfin, hle, -⟩ :=
    roundTo_of_le (num := d * u) (s != false) (one_pos F) hd (Nat.mul_le_mul_left d hu)
  rw [Bool.bne_false] at hfin
  exact ⟨(by rw [mulF, Bool.bne_false, hfin, shareMag]), hle⟩

/-- With finite bounds and a finite difference a range is the lower bound plus a share of the
difference. -/
theorem rangeOf_fin {F : Format} {s t e : Bool} {m n d u : Nat}
    (hd : subF F (.fin t n) (.fin s m) = .fin e d) (hu : u ≤ F.one) :
    rangeOf F (.fin s m) (.fin t n) (.fin false u) = addF F (.fin s m) (.fin e (shareMag F d u)) ∧
      shareMag F d u ≤ d := by
  have hrep : F.Representable d := representable_of_roundsUnits (hd ▸ roundsUnits_subF F t s n m)
  obtain ⟨hmul, hle⟩ := mulF_unit (s := e) hrep hu
  exact ⟨by rw [rangeOf, hd, hmul], hle⟩

/-- A share of a difference lies on the difference's side of zero, and not past it. -/
theorem signedUnits_between {e : Bool} {p d : Nat} (h : p ≤ d) :
    (0 ≤ signedUnits e d → 0 ≤ signedUnits e p ∧ signedUnits e p ≤ signedUnits e d) ∧
    (signedUnits e d ≤ 0 → signedUnits e p ≤ 0 ∧ signedUnits e d ≤ signedUnits e p) := by
  cases e <;> simp only [signedUnits, if_true, if_false, reduceCtorEq] <;> omega

/-- Zero is a value of every format. -/
theorem representable_zero (F : Format) : F.Representable 0 :=
  ⟨Nat.two_pow_pos _, 0, 0, Nat.two_pow_pos _, rfl⟩

/-- The difference of bounds in order is not negative. -/
theorem signedUnits_sub_nonneg {F : Format} {s t e : Bool} {m n d : Nat}
    (h : signedUnits s m ≤ signedUnits t n) (hd : subF F (.fin t n) (.fin s m) = .fin e d) :
    0 ≤ signedUnits e d := by
  have hdiff : RoundsUnits F (signedUnits t n - signedUnits s m) (.fin e d) :=
    hd ▸ roundsUnits_subF F t s n m
  have hzero := roundsUnits_self false (representable_zero F)
  exact le_fin_iff.1 (le_of_roundsUnits (by simpa [signedUnits] using h) hzero hdiff)

theorem exists_fin_of_isFinite {v : FloatVal} (h : v.isFinite = true) : ∃ s m, v = .fin s m := by
  cases v with
  | nan => cases h
  | inf neg => cases h
  | fin s m => exact ⟨s, m, rfl⟩

/-- The value of an operand register is a value of its format. -/
theorem representable_operandF {F : Format} {w : Word} {s : Bool} {m : Nat}
    (h : operandF F w = .fin s m) : F.Representable m := by
  cases F with
  | f32 => exact representable_ofBits (F := .f32) h
  | f64 => exact representable_ofBits (F := .f64) h

/-- Settles O35: the share of the difference that is added lies between zero and the difference, and
a rounded sum keeps the order of the sums. -/
theorem floatRangeContainment : Obligations.FloatRangeContainment := by
  intro F a b w hw ha hb hab hd
  obtain ⟨s, m, ha⟩ := exists_fin_of_isFinite ha
  obtain ⟨t, n, hb⟩ := exists_fin_of_isFinite hb
  obtain ⟨e, d, hd⟩ := exists_fin_of_isFinite hd
  have hm := representable_operandF ha
  obtain ⟨hunit, hu⟩ := unitOf_eq F hw
  rw [ha, hb] at hab hd
  obtain ⟨hrange, hshare⟩ := rangeOf_fin hd hu
  obtain ⟨hbetween, -⟩ := signedUnits_between (e := e) hshare
  obtain ⟨hlow, hhigh⟩ := hbetween (signedUnits_sub_nonneg (le_fin_iff.1 hab) hd)
  have hsum := roundsUnits_addF F s e m (shareMag F d (unitMag F w.toNat))
  rw [ha, hb, hunit, hd, hrange]
  exact ⟨le_of_roundsUnits (by omega) (roundsUnits_self s hm) hsum,
    le_of_roundsUnits (by omega) hsum (roundsUnits_addF F s e m d)⟩

/-! ## Corner cases (R159, R163) -/

/-- A value of the format plus the positive zero is the value, but for the negative zero. -/
theorem addF_zero {F : Format} {m : Nat} (s : Bool) (hm : F.Representable m) :
    addF F (.fin s m) (.fin false 0) = .fin (s && m != 0) m := by
  have hexact := roundTo_exact s Nat.one_pos hm
  rw [Nat.mul_one] at hexact
  by_cases hzero : m = 0
  · subst hzero
    rw [addF_of_sum_zero F (by cases s <;> rfl)]
    rfl
  · have hpos : 0 < m := Nat.pos_of_ne_zero hzero
    have hsign : (s && m != 0) = s := by simp [hzero]
    rw [addF_fin_def, hsign]
    cases s with
    | false => rw [if_pos rfl, Nat.add_zero, hexact]
    | true => rw [if_neg (by decide), if_pos hpos, Nat.sub_zero, hexact]

/-- Settles O33: the difference is the positive zero, and so is its share. -/
theorem equalBoundsGiveTheBound : Obligations.EqualBoundsGiveTheBound := by
  intro F w s neg mag hs hw
  obtain ⟨hunit, hu⟩ := unitOf_eq F hs
  have hd : subF F (.fin neg mag) (.fin neg mag) = .fin false 0 := by
    rw [subF, FloatVal.neg, addF_of_sum_zero F (by rw [signedUnits_not, add_neg_cancel]),
      Bool.and_not_self]
  obtain ⟨hrange, hshare⟩ := rangeOf_fin hd hu
  rw [hw, hunit, hrange, Nat.le_zero.1 hshare, addF_zero neg (representable_operandF hw)]

/-- A positive infinite difference gives NaN for the unit value 0 and an infinite share otherwise.
-/
theorem mulF_inf_unit (F : Format) (u : Nat) :
    mulF F (.inf false) (.fin false u) = if u = 0 then .nan else .inf false := rfl

theorem rangeOf_nan_left (F : Format) (v u : FloatVal) : rangeOf F .nan v u = .nan := by
  rw [rangeOf, addF]

theorem rangeOf_nan_right (F : Format) (v u : FloatVal) : rangeOf F v .nan u = .nan := by
  rw [rangeOf, subF, addF, mulF]
  cases v <;> rfl

/-- Between finite bounds whose difference overflows. -/
theorem rangeOf_overflow {F : Format} {a b : FloatVal} (ha : a.isFinite = true)
    (hd : subF F b a = .inf false) (u : Nat) :
    rangeOf F a b (.fin false u) = if u = 0 then .nan else .inf false := by
  obtain ⟨s, m, rfl⟩ := exists_fin_of_isFinite ha
  rw [rangeOf, hd, mulF_inf_unit]
  split <;> rfl

/-- Between the infinities. -/
theorem rangeOf_infinities (F : Format) (u : Nat) :
    rangeOf F (.inf true) (.inf false) (.fin false u) = .nan := by
  have hd : subF F (.inf false) (.inf true) = .inf false := rfl
  rw [rangeOf, hd, mulF_inf_unit]
  split <;> rfl

/-- The difference of the extreme finite values overflows. -/
theorem extreme_difference :
    (operandF32 0xff7fffff).isFinite = true ∧
    subF .f32 (operandF32 0x7f7fffff) (operandF32 0xff7fffff) = .inf false ∧
    (operandF64 0xffefffffffffffff).isFinite = true ∧
    subF .f64 (operandF64 0x7fefffffffffffff) (operandF64 0xffefffffffffffff) = .inf false := by
  decide +kernel

theorem resultF32_inf : resultF32 (.inf false) = 0x7f800000 := rfl

theorem resultF64_inf : resultF64 (.inf false) = 0x7ff0000000000000 := rfl

/-- Settles O34: the difference overflows, and only the scaled value 0 has the unit value 0. -/
theorem extremeBoundsOverflow : Obligations.ExtremeBoundsOverflow := by
  intro s hs
  obtain ⟨hfin32, hd32, hfin64, hd64⟩ := extreme_difference
  have hzero (F : Format) : unitMag F s.toNat = 0 ↔ s = 0 :=
    (unitMag_eq_zero_iff F _).trans (toNat_eq_zero_iff s)
  rw [(unitOf_eq .f32 hs).1, (unitOf_eq .f64 hs).1, rangeOf_overflow hfin32 hd32,
    rangeOf_overflow hfin64 hd64]
  simp only [hzero, apply_ite resultF32, apply_ite resultF64, resultF32_nan, resultF64_nan,
    resultF32_inf, resultF64_inf, and_self]

/-- Settles O32: the patterns by their fields, a NaN bound through each operation, and the infinite
bounds through their infinite difference. -/
theorem nanRangesAreCanonical : Obligations.NanRangesAreCanonical := by
  refine ⟨fun w => ⟨operandF32_eq_nan_iff w, operandF32_eq_inf_iff w, ?_⟩,
    fun w => ⟨operandF64_eq_nan_iff w, operandF64_eq_inf_iff w, ?_⟩, fun v u => ?_, fun s hs => ?_⟩
  · split
    next hnan => rw [(operandF32_eq_nan_iff w).2 hnan, resultF32_nan]
    next hnan => exact resultF32_operandF32 fun h => hnan ((operandF32_eq_nan_iff w).1 h)
  · split
    next hnan => rw [(operandF64_eq_nan_iff w).2 hnan, resultF64_nan]
    next hnan => exact resultF64_operandF64 fun h => hnan ((operandF64_eq_nan_iff w).1 h)
  · simp only [rangeOf_nan_left, rangeOf_nan_right, resultF32_nan, resultF64_nan, and_self]
  · rw [(unitOf_eq .f32 hs).1, (unitOf_eq .f64 hs).1, rangeOf_infinities, rangeOf_infinities]
    exact ⟨resultF32_nan, resultF64_nan⟩

/-! ## Integer ranges (R167, R171, R173) -/

theorem signedUnits_mem {m w : Nat} (s : Bool) (h : m ≤ w) :
    -(w : Int) ≤ signedUnits s m ∧ signedUnits s m ≤ w := by
  cases s <;> simp only [signedUnits, if_true, if_false, reduceCtorEq] <;> omega

/-- The difference of two values of magnitude at most `w` leaves room, on either side, for it to be
added to the first within `2w`: the side on which it is longer than `w` is the one the first is away
from. -/
theorem exists_room {x y : Int} {w : Nat} (hx : -(w : Int) ≤ x ∧ x ≤ w)
    (hy : -(w : Int) ≤ y ∧ y ≤ w) :
    ∃ lo hi : Nat, (lo = w ∨ lo = 2 * w) ∧ (hi = w ∨ hi = 2 * w) ∧ -(lo : Int) ≤ y - x ∧
      y - x ≤ hi ∧ -(2 * w : Int) ≤ x - lo ∧ x + hi ≤ 2 * w := by
  by_cases hpos : 0 ≤ x
  · exact ⟨2 * w, w, .inr rfl, .inl rfl, by omega⟩
  · exact ⟨w, 2 * w, .inl rfl, .inr rfl, by omega⟩

/-- The remap between bounds of magnitude at most `w` is finite, of magnitude at most `2w`. -/
theorem rangeOf_bounded {F : Format} {s t : Bool} {m n w u : Nat} (hw : F.Representable w)
    (h2w : F.Representable (2 * w)) (hm : m ≤ w) (hn : n ≤ w) (hu : u ≤ F.one) :
    ∃ neg mag, rangeOf F (.fin s m) (.fin t n) (.fin false u) = .fin neg mag ∧ mag ≤ 2 * w := by
  obtain ⟨lo, hi, hlo, hhi, hlow, hhigh, hroomlow, hroomhigh⟩ :=
    exists_room (signedUnits_mem s hm) (signedUnits_mem t hn)
  have hlo : F.Representable lo := by obtain rfl | rfl := hlo <;> assumption
  have hhi : F.Representable hi := by obtain rfl | rfl := hhi <;> assumption
  have hneg (k : Nat) : signedUnits true k = -(k : Int) := rfl
  have hpos (k : Nat) : signedUnits false k = (k : Int) := rfl
  obtain ⟨e, d, hd, -, hdlow, hdhigh⟩ := roundsUnits_mem (s := true) (t := false) hlo hhi hlow hhigh
    (roundsUnits_subF F t s n m)
  obtain ⟨hrange, hshare⟩ := rangeOf_fin hd hu
  obtain ⟨hright, hleft⟩ := signedUnits_between (e := e) hshare
  obtain ⟨neg, mag, hsum, -, hlow', hhigh'⟩ := roundsUnits_mem (s := true) (t := false) h2w h2w
    (x := signedUnits s m + signedUnits e (shareMag F d u)) (by rw [hneg] at *; omega)
    (by rw [hpos] at *; omega) (roundsUnits_addF F s e m _)
  refine ⟨neg, mag, hrange.trans hsum, ?_⟩
  rw [hneg] at hlow'
  rw [hpos] at hhigh'
  have := natAbs_signedUnits neg mag
  omega

/-- An integer of magnitude at most 2^k is converted to a finite value of magnitude at most 2^k. -/
theorem cvt_bounded {F : Format} {k : Nat} (hk : k ≤ 64) {n : Int} (hlow : -2 ^ k ≤ n)
    (hhigh : n ≤ 2 ^ k) : ∃ s m, cvt F n = .fin s m ∧ m ≤ 2 ^ k * F.one := by
  have hrep : F.Representable (2 ^ k * F.one) := representable_two_pow_mul_one (.inr hk)
  have hle : n.natAbs * F.one ≤ 2 ^ k * F.one * 1 := by
    rw [Nat.mul_one]
    refine Nat.mul_le_mul_right _ ?_
    zify
    exact abs_le.2 ⟨hlow, hhigh⟩
  obtain ⟨hfin, hmag, -⟩ := roundTo_of_le (decide (n < 0)) Nat.one_pos hrep hle
  exact ⟨_, _, hfin, hmag⟩

/-- The remap between signed integers of so many bits. -/
theorem rangeOf_cvt_bounded {F : Format} {bits u : Nat} (hpos : 0 < bits) (hbits : bits ≤ 64)
    {a b : Int} (ha : -2 ^ (bits - 1) ≤ a ∧ a ≤ 2 ^ (bits - 1))
    (hb : -2 ^ (bits - 1) ≤ b ∧ b ≤ 2 ^ (bits - 1)) (hu : u ≤ F.one) :
    ∃ neg mag, rangeOf F (cvt F a) (cvt F b) (.fin false u) = .fin neg mag ∧
      mag ≤ 2 ^ bits * F.one := by
  obtain ⟨halow, hahigh⟩ := ha
  obtain ⟨hblow, hbhigh⟩ := hb
  obtain ⟨s, m, ha, hm⟩ := cvt_bounded (F := F) (by omega) halow hahigh
  obtain ⟨t, n, hb, hn⟩ := cvt_bounded (F := F) (by omega) hblow hbhigh
  have hdouble : 2 ^ bits * F.one = 2 * (2 ^ (bits - 1) * F.one) := by
    rw [← Nat.mul_assoc, ← Nat.pow_succ', Nat.succ_eq_add_one, Nat.sub_add_cancel hpos]
  rw [ha, hb, hdouble]
  refine rangeOf_bounded (representable_two_pow_mul_one (.inr (by omega))) ?_ hm hn hu
  rw [← hdouble]
  exact representable_two_pow_mul_one (.inr hbits)

theorem toInt_mem {n : Nat} (x : BitVec n) : -2 ^ (n - 1) ≤ x.toInt ∧ x.toInt ≤ 2 ^ (n - 1) :=
  ⟨BitVec.le_toInt x, (BitVec.toInt_lt (x := x)).le⟩

/-- Settles O36: the bounds are integers of 32 and of 64 bits, and the remap at most doubles them.
-/
theorem integerRangeIsFinite : Obligations.IntegerRangeIsFinite := by
  intro a b s hs
  obtain ⟨hunit32, hu32⟩ := unitOf_eq .f32 hs
  obtain ⟨hunit64, hu64⟩ := unitOf_eq .f64 hs
  have h32 := rangeOf_cvt_bounded (by decide) (by decide) (toInt_mem (a.extractLsb' 0 32))
    (toInt_mem (b.extractLsb' 0 32)) hu32
  have h64 := rangeOf_cvt_bounded (by decide) (by decide) (toInt_mem a) (toInt_mem b) hu64
  rw [hunit32, hunit64]
  simp only [Format.one, Format.unitExp] at h32 h64
  exact ⟨h32, h64⟩

/-- Rounding to an integer crosses no integer. -/
theorem roundQuot_le_int (ties : RoundTies) {num den : Nat} {b : Int} (hd : 0 < den)
    (h : (num : Int) ≤ b * den) : (roundQuot ties num den : Int) ≤ b := by
  have hb : 0 ≤ b := nonneg_of_mul_nonneg_left (by omega) (Int.natCast_pos.2 hd)
  obtain ⟨k, rfl⟩ := Int.eq_ofNat_of_zero_le hb
  exact Int.ofNat_le.2 (roundQuot_le ties hd (by exact_mod_cast h))

theorem int_le_roundQuot (ties : RoundTies) {num den : Nat} {a : Int} (hd : 0 < den)
    (h : a * den ≤ (num : Int)) : a ≤ (roundQuot ties num den : Int) := by
  obtain hneg | hpos := le_or_gt a 0
  · omega
  · obtain ⟨k, rfl⟩ := Int.eq_ofNat_of_zero_le hpos.le
    exact Int.ofNat_le.2 (le_roundQuot ties hd (by exact_mod_cast h))

theorem rint_mem {F : Format} {ties : RoundTies} {neg : Bool} {mag : Nat} {a b : Int}
    (hlow : a * F.one ≤ signedUnits neg mag) (hhigh : signedUnits neg mag ≤ b * F.one) :
    a ≤ rint F ties (.fin neg mag) ∧ rint F ties (.fin neg mag) ≤ b := by
  rw [rint_fin]
  cases neg with
  | false =>
    simp only [signedUnits, if_false, reduceCtorEq] at *
    exact ⟨int_le_roundQuot ties (one_pos F) hlow, roundQuot_le_int ties (one_pos F) hhigh⟩
  | true =>
    simp only [signedUnits, if_true] at *
    have hupper := roundQuot_le_int ties (num := mag) (b := -a) (one_pos F)
      (by rw [Int.neg_mul]; omega)
    have hlower := int_le_roundQuot ties (num := mag) (a := -b) (one_pos F)
      (by rw [Int.neg_mul]; omega)
    exact ⟨by omega, by omega⟩

/-- A small integer is converted to its own count of units. -/
theorem cvt_exact {F : Format} {n : Int} (h : n.natAbs ≤ 2 ^ (F.mantBits + 1)) :
    ∃ s m, cvt F n = .fin s m ∧ F.Representable m ∧ signedUnits s m = n * F.one := by
  have hrep : F.Representable (n * F.one).natAbs := by
    rw [Int.natAbs_mul, Int.natAbs_natCast]
    exact representable_small h
  obtain ⟨s, hcvt, hvalue⟩ := roundsUnits_exact hrep (roundsUnits_cvt F n)
  exact ⟨s, _, hcvt, hrep, hvalue⟩

/-- With small bounds and a small difference nothing before the last sum is rounded but the share,
and the bounds are values of the format that the sum lies between. -/
theorem rangeInt_mem {F : Format} {bits u : Nat} {ties : RoundTies} {a b : Int} (hab : a ≤ b)
    (ha : a.natAbs ≤ 2 ^ (F.mantBits + 1)) (hb : b.natAbs ≤ 2 ^ (F.mantBits + 1))
    (hdiff : b - a ≤ 2 ^ (F.mantBits + 1)) (hbits : F.mantBits + 1 < bits - 1) (hu : u ≤ F.one) :
    a ≤ rangeInt F bits ties a b (.fin false u) ∧ rangeInt F bits ties a b (.fin false u) ≤ b := by
  obtain ⟨s, m, hcvta, hm, hvaluea⟩ := cvt_exact ha
  obtain ⟨t, n, hcvtb, hn, hvalueb⟩ := cvt_exact hb
  have hrep : F.Representable (signedUnits t n - signedUnits s m).natAbs := by
    rw [hvaluea, hvalueb, ← Int.sub_mul, Int.natAbs_mul, Int.natAbs_natCast]
    refine representable_small ?_
    zify
    rwa [abs_of_nonneg (by omega)]
  obtain ⟨e, hd, hvalued⟩ := roundsUnits_exact hrep (roundsUnits_subF F t s n m)
  generalize (signedUnits t n - signedUnits s m).natAbs = d at hd hvalued
  obtain ⟨hrange, hshare⟩ := rangeOf_fin hd hu
  have horder : a * F.one ≤ b * F.one := Int.mul_le_mul_of_nonneg_right hab (Int.natCast_nonneg _)
  obtain ⟨hbetween, -⟩ := signedUnits_between (e := e) hshare
  obtain ⟨hlow, hhigh⟩ := hbetween (by omega)
  obtain ⟨neg, mag, hsum, -, hlow', hhigh'⟩ := roundsUnits_mem (s := s) (t := t) hm hn (by omega)
    (by omega) (roundsUnits_addF F s e m (shareMag F d u))
  obtain ⟨hrlow, hrhigh⟩ := rint_mem (ties := ties) (hvaluea ▸ hlow') (hvalueb ▸ hhigh')
  have hpow : (2 : Int) ^ (F.mantBits + 1) < 2 ^ (bits - 1) :=
    pow_lt_pow_right₀ (by decide) hbits
  zify at ha hb
  obtain ⟨halow, -⟩ := abs_le.1 ha
  obtain ⟨-, hbhigh⟩ := abs_le.1 hb
  have hsat := sat_of_mem (bits := bits) (n := rint F ties (.fin neg mag)) (by omega) (by omega)
  rw [rangeInt, hcvta, hcvtb, hrange, hsum, hsat]
  exact ⟨hrlow, hrhigh⟩

/-- Settles O37: `rangeInt_mem` in the two formats, whose significands are narrower than the
integers. -/
theorem integerRangeContainment : Obligations.IntegerRangeContainment := by
  intro ties a b s hs hab
  obtain ⟨hunit32, hu32⟩ := unitOf_eq .f32 hs
  obtain ⟨hunit64, hu64⟩ := unitOf_eq .f64 hs
  rw [hunit32, hunit64]
  exact ⟨fun ha hb hd => rangeInt_mem (F := .f32) hab ha hb hd (by decide) hu32,
    fun ha hb hd => rangeInt_mem (F := .f64) hab ha hb hd (by decide) hu64⟩

/-! ## Vector components (R182) -/

/-- A component is minus one plus a share of two. -/
theorem compOf_eq (F : Format) {s : Word} (hs : s.toNat ≤ 4294967294) :
    compOf F s =
        addF F (onePoint F true) (.fin false (shareMag F (2 * F.one) (unitMag F s.toNat))) ∧
      shareMag F (2 * F.one) (unitMag F s.toNat) ≤ 2 * F.one := by
  obtain ⟨hunit, hu⟩ := unitOf_eq F hs
  have htwo : F.Representable (2 * F.one) := by
    have := representable_two_pow_mul_one (F := F) (k := 1) (.inr (by decide))
    rwa [Nat.pow_one] at this
  have hd : subF F (onePoint F false) (onePoint F true) = .fin false (2 * F.one) := by
    have hexact := roundTo_exact false Nat.one_pos htwo
    rw [Nat.mul_one] at hexact
    rw [onePoint, onePoint, subF, FloatVal.neg, addF_fin_def, if_pos (by decide), ← Nat.two_mul]
    exact hexact
  rw [compOf, hunit]
  exact rangeOf_fin hd hu

theorem compOf_mono (F : Format) {s s' : Word} (hs' : s'.toNat ≤ 4294967294)
    (h : s.toNat ≤ s'.toNat) : FloatVal.le (compOf F s) (compOf F s') = true := by
  obtain ⟨hcomp, -⟩ := compOf_eq F (h.trans hs')
  obtain ⟨hcomp', -⟩ := compOf_eq F hs'
  have hshare := shareMag_mono F (2 * F.one) (unitMag_mono F h)
  rw [hcomp, hcomp']
  refine le_of_roundsUnits ?_ (roundsUnits_addF F _ _ _ _) (roundsUnits_addF F _ _ _ _)
  simp only [signedUnits, if_false, reduceCtorEq]
  omega

/-- R182: a component lies between minus one and one. -/
theorem compOf_mem (F : Format) {s : Word} (hs : s.toNat ≤ 4294967294) :
    FloatVal.le (onePoint F true) (compOf F s) = true ∧
      FloatVal.le (compOf F s) (onePoint F false) = true := by
  obtain ⟨hcomp, hshare⟩ := compOf_eq F hs
  have hsum := roundsUnits_addF F true false F.one (shareMag F (2 * F.one) (unitMag F s.toNat))
  have hone (neg : Bool) := roundsUnits_self neg (representable_one F)
  rw [hcomp]
  constructor
  · refine le_of_roundsUnits ?_ (hone true) hsum
    simp only [signedUnits, if_true, if_false, reduceCtorEq]
    omega
  · refine le_of_roundsUnits ?_ hsum (hone false)
    simp only [signedUnits, if_true, if_false, reduceCtorEq]
    omega

/-- The order on values tells a nonzero finite value from every other. -/
theorem eq_fin_of_le_of_le {v : FloatVal} {s : Bool} {m : Nat} (hm : m ≠ 0)
    (h : FloatVal.le (.fin s m) v = true) (h' : FloatVal.le v (.fin s m) = true) :
    v = .fin s m := by
  obtain ⟨t, n, rfl⟩ := exists_fin_of_le_of_le h h'
  have heq := le_antisymm (le_fin_iff.1 h) (le_fin_iff.1 h')
  have hmag : m = n := by
    rw [← natAbs_signedUnits s m, heq, natAbs_signedUnits]
  subst hmag
  cases s <;> cases t <;> simp [signedUnits] at heq ⊢ <;> omega

/-- The scaled values whose component is minus one, from the last of them. -/
theorem compOf_eq_low_iff {F : Format} {last next s : Word} (hs : s.toNat ≤ 4294967294)
    (hlast : last.toNat ≤ 4294967294) (hnext : next.toNat = last.toNat + 1)
    (hreached : compOf F last = onePoint F true)
    (hpast : FloatVal.le (compOf F next) (onePoint F true) = false) :
    compOf F s = onePoint F true ↔ s.toNat ≤ last.toNat := by
  constructor
  · intro heq
    by_contra hlt
    have hle := compOf_mono F (s := next) hs (by omega)
    rw [heq, hpast] at hle
    cases hle
  · intro hle
    obtain ⟨hlow, -⟩ := compOf_mem F hs
    have hmono := compOf_mono F hlast hle
    rw [hreached] at hmono
    exact eq_fin_of_le_of_le (one_pos F).ne' hlow hmono

/-- The scaled values whose component is one, from the first of them. -/
theorem compOf_eq_high_iff {F : Format} {before first s : Word} (hs : s.toNat ≤ 4294967294)
    (hbefore : first.toNat = before.toNat + 1) (hfirst : first.toNat ≤ 4294967294)
    (hbelow : FloatVal.le (onePoint F false) (compOf F before) = false)
    (hreached : compOf F first = onePoint F false) :
    compOf F s = onePoint F false ↔ first.toNat ≤ s.toNat := by
  constructor
  · intro heq
    by_contra hlt
    have hle := compOf_mono F (s := s) (s' := before) (by omega) (by omega)
    rw [heq, hbelow] at hle
    cases hle
  · intro hge
    obtain ⟨-, hhigh⟩ := compOf_mem F hs
    have hmono := compOf_mono F hs hge
    rw [hreached] at hmono
    exact eq_fin_of_le_of_le (one_pos F).ne' hmono hhigh

/-- The F32 components on either side of the two thresholds of R182. -/
theorem compOf_f32_thresholds :
    compOf .f32 64 = onePoint .f32 true ∧
    FloatVal.le (compOf .f32 65) (onePoint .f32 true) = false ∧
    FloatVal.le (onePoint .f32 false) (compOf .f32 4294967167) = false ∧
    compOf .f32 4294967168 = onePoint .f32 false := by decide +kernel

/-- The F64 components at the ends of the scaled values. -/
theorem compOf_f64_ends :
    compOf .f64 0 = onePoint .f64 true ∧
    FloatVal.le (compOf .f64 1) (onePoint .f64 true) = false ∧
    FloatVal.le (onePoint .f64 false) (compOf .f64 4294967294) = false := by decide +kernel

/-- Settles O41: components grow with the scaled value, so the values next to each threshold decide.
-/
theorem componentRanges : Obligations.ComponentRanges := by
  intro s hs
  obtain ⟨hlow32, hhigh32⟩ := compOf_mem .f32 hs
  obtain ⟨hlow64, hhigh64⟩ := compOf_mem .f64 hs
  obtain ⟨h64, h65, hbelow, hreached⟩ := compOf_f32_thresholds
  obtain ⟨h0, h1, htop⟩ := compOf_f64_ends
  refine ⟨⟨hlow32, hhigh32, compOf_eq_low_iff hs (by decide) rfl h64 h65,
    compOf_eq_high_iff hs rfl (by decide) hbelow hreached⟩, hlow64, ?_, ?_⟩
  · refine Bool.eq_false_iff.2 fun hge => ?_
    have hone := eq_fin_of_le_of_le (one_pos .f64).ne' hge hhigh64
    have hle := compOf_mono .f64 (s := s) (s' := 4294967294) (by decide) hs
    rw [hone] at hle
    exact absurd (hle.symm.trans htop) (by decide)
  · refine (compOf_eq_low_iff hs (by decide) rfl h0 h1).trans ?_
    exact Nat.le_zero.trans (toNat_eq_zero_iff s)

end Sys2Proof.Machine
end
